-- ==== Sys2Proof/Word.lean ====
section
/-! DEFINITION. Word types of the CORE (spec/00_scope.md R6, R7): every value the hardware holds is an unsigned bit field. -/

namespace Sys2Proof

/-- A general register, a timer or a memory byte: 8 bits (R6 `XLEN`, `TIMER_BITS`; R40). -/
abbrev Byte := BitVec 8

/-- An instruction word, `I`, `PC` or a return address: 16 bits (R6 `I_BITS`, `PC_BITS`, `RET_BITS`; R60). -/
abbrev Word := BitVec 16

/-- The 12-bit address field `nnn` (R61). -/
abbrev Addr12 := BitVec 12

/-- One of the four 4-bit fields of an instruction word (R7). -/
abbrev Nibble := BitVec 4

/-- The index of a general register, 0..15 (R11: every index an instruction can form is valid). -/
abbrev RegIx := Fin 16

/-- `VF`, the flag register (R12). -/
abbrev flagReg : RegIx := 15

end Sys2Proof
end

