-- ==== Sys2Proof/Syntax.lean ====
section
/-! DEFINITION. The 34 instructions of spec/30_encoding.md R66, one constructor per row, in the table's order. -/

namespace Sys2Proof

/-- An instruction with its fields (R61 to R63). `x` and `y` name general registers, `nn` and `nnn` are unsigned immediates and
`n` is the sprite height, a count that the word can give as 0..15 (`Instr.WellFormed`). -/
inductive Instr where
  /-- 1 `CLS` -/
  | cls
  /-- 2 `RET` -/
  | ret
  /-- 3 `JP nnn` -/
  | jp (nnn : Addr12)
  /-- 4 `CALL nnn` -/
  | call (nnn : Addr12)
  /-- 5 `SE Vx, nn` -/
  | seImm (x : RegIx) (nn : Byte)
  /-- 6 `SNE Vx, nn` -/
  | sneImm (x : RegIx) (nn : Byte)
  /-- 7 `SE Vx, Vy` -/
  | seReg (x y : RegIx)
  /-- 8 `LD Vx, nn` -/
  | ldImm (x : RegIx) (nn : Byte)
  /-- 9 `ADD Vx, nn` -/
  | addImm (x : RegIx) (nn : Byte)
  /-- 10 `LD Vx, Vy` -/
  | ldReg (x y : RegIx)
  /-- 11 `OR Vx, Vy` -/
  | orReg (x y : RegIx)
  /-- 12 `AND Vx, Vy` -/
  | andReg (x y : RegIx)
  /-- 13 `XOR Vx, Vy` -/
  | xorReg (x y : RegIx)
  /-- 14 `ADD Vx, Vy` -/
  | addReg (x y : RegIx)
  /-- 15 `SUB Vx, Vy` -/
  | subReg (x y : RegIx)
  /-- 16 `SHR Vx`; `y` is decoded and not used -/
  | shr (x y : RegIx)
  /-- 17 `SUBN Vx, Vy` -/
  | subnReg (x y : RegIx)
  /-- 18 `SHL Vx`; `y` is decoded and not used -/
  | shl (x y : RegIx)
  /-- 19 `SNE Vx, Vy` -/
  | sneReg (x y : RegIx)
  /-- 20 `LD I, nnn` -/
  | ldI (nnn : Addr12)
  /-- 21 `JP V0, nnn` -/
  | jpV0 (nnn : Addr12)
  /-- 22 `RND Vx, nn` -/
  | rnd (x : RegIx) (nn : Byte)
  /-- 23 `DRW Vx, Vy, n` -/
  | drw (x y : RegIx) (n : Nat)
  /-- 24 `SKP Vx` -/
  | skp (x : RegIx)
  /-- 25 `SKNP Vx` -/
  | sknp (x : RegIx)
  /-- 26 `LD Vx, DT` -/
  | ldVxDT (x : RegIx)
  /-- 27 `LD Vx, K` -/
  | ldVxK (x : RegIx)
  /-- 28 `LD DT, Vx` -/
  | ldDTVx (x : RegIx)
  /-- 29 `LD ST, Vx` -/
  | ldSTVx (x : RegIx)
  /-- 30 `ADD I, Vx` -/
  | addI (x : RegIx)
  /-- 31 `LD F, Vx` -/
  | ldF (x : RegIx)
  /-- 32 `LD B, Vx` -/
  | ldB (x : RegIx)
  /-- 33 `LD [I], Vx` -/
  | storeRegs (x : RegIx)
  /-- 34 `LD Vx, [I]` -/
  | loadRegs (x : RegIx)
  deriving DecidableEq, Repr

end Sys2Proof
end

