-- ==== Sys2Proof/Decode.lean ====
section
/-! DEFINITION. Decoding (spec/30_encoding.md R60 to R67), total on any word and on any bytes, then the encoder and the opcode
table (R66) it is written from. -/

namespace Sys2Proof

/-- Why some bytes are no instruction: `truncated` when there are fewer than two bytes, else the line of R67's table. -/
inductive Illegal where
  /-- fewer than the two bytes every instruction has (R60) -/
  | truncated
  /-- `0nnn` other than `00E0` and `00EE` -/
  | family0
  /-- `5xyn` with `n ≠ 0` -/
  | family5
  /-- `8xyn` with `n` in 8..D or F -/
  | family8
  /-- `9xyn` with `n ≠ 0` -/
  | family9
  /-- `Exnn` with `nn` not 9E or A1 -/
  | familyE
  /-- `Fxnn` with `nn` none of the nine of R66 -/
  | familyF
  deriving DecidableEq, Repr

/-- What the decoder answers: an instruction, or a rejection by name (R64). -/
abbrev Decoded := Except Illegal Instr

/-- The word of two bytes: the byte at the lower address is the high one (R44, R46). -/
def wordOfBytes (hi lo : Byte) : Word := hi ++ lo

/-- `w[15:12]` (R61). -/
def nibble3 (w : Word) : Nibble := w.extractLsb' 12 4
/-- `w[11:8]` (R61). -/
def nibble2 (w : Word) : Nibble := w.extractLsb' 8 4
/-- `w[7:4]` (R61). -/
def nibble1 (w : Word) : Nibble := w.extractLsb' 4 4
/-- `w[3:0]` (R61; the place of `n` is the spec's decision D2). -/
def nibble0 (w : Word) : Nibble := w.extractLsb' 0 4

/-- A register field (R61). -/
def regOf (x : Nibble) : RegIx := x.toFin

/-- Family 0 of R65: the whole word is fixed. -/
def decodeFamily0 (x y n : Nibble) : Decoded :=
  if x = 0x0#4 ∧ y = 0xE#4 ∧ n = 0x0#4 then .ok .cls
  else if x = 0x0#4 ∧ y = 0xE#4 ∧ n = 0xE#4 then .ok .ret
  else .error .family0

/-- Family 8 of R65: the sub-operation is `n`. -/
def decodeFamily8 (x y : RegIx) (n : Nibble) : Decoded :=
  match n with
  | 0x0#4 => .ok (.ldReg x y)
  | 0x1#4 => .ok (.orReg x y)
  | 0x2#4 => .ok (.andReg x y)
  | 0x3#4 => .ok (.xorReg x y)
  | 0x4#4 => .ok (.addReg x y)
  | 0x5#4 => .ok (.subReg x y)
  | 0x6#4 => .ok (.shr x y)
  | 0x7#4 => .ok (.subnReg x y)
  | 0xE#4 => .ok (.shl x y)
  | _ => .error .family8

/-- Family E of R65: the sub-operation is `nn`. -/
def decodeFamilyE (x : RegIx) (nn : Byte) : Decoded :=
  match nn with
  | 0x9E#8 => .ok (.skp x)
  | 0xA1#8 => .ok (.sknp x)
  | _ => .error .familyE

/-- Family F of R65: the sub-operation is `nn`. -/
def decodeFamilyF (x : RegIx) (nn : Byte) : Decoded :=
  match nn with
  | 0x07#8 => .ok (.ldVxDT x)
  | 0x0A#8 => .ok (.ldVxK x)
  | 0x15#8 => .ok (.ldDTVx x)
  | 0x18#8 => .ok (.ldSTVx x)
  | 0x1E#8 => .ok (.addI x)
  | 0x29#8 => .ok (.ldF x)
  | 0x33#8 => .ok (.ldB x)
  | 0x55#8 => .ok (.storeRegs x)
  | 0x65#8 => .ok (.loadRegs x)
  | _ => .error .familyF

/-- The opcode map by top nibble (R65), over the four nibbles of the word: `nn = {y, n}` and `nnn = {x, y, n}` (R61). -/
def decodeNibbles (op x y n : Nibble) : Decoded :=
  match op with
  | 0x0#4 => decodeFamily0 x y n
  | 0x1#4 => .ok (.jp (x ++ y ++ n))
  | 0x2#4 => .ok (.call (x ++ y ++ n))
  | 0x3#4 => .ok (.seImm (regOf x) (y ++ n))
  | 0x4#4 => .ok (.sneImm (regOf x) (y ++ n))
  | 0x5#4 => if n = 0x0#4 then .ok (.seReg (regOf x) (regOf y)) else .error .family5
  | 0x6#4 => .ok (.ldImm (regOf x) (y ++ n))
  | 0x7#4 => .ok (.addImm (regOf x) (y ++ n))
  | 0x8#4 => decodeFamily8 (regOf x) (regOf y) n
  | 0x9#4 => if n = 0x0#4 then .ok (.sneReg (regOf x) (regOf y)) else .error .family9
  | 0xA#4 => .ok (.ldI (x ++ y ++ n))
  | 0xB#4 => .ok (.jpV0 (x ++ y ++ n))
  | 0xC#4 => .ok (.rnd (regOf x) (y ++ n))
  | 0xD#4 => .ok (.drw (regOf x) (regOf y) n.toNat)
  | 0xE#4 => decodeFamilyE (regOf x) (y ++ n)
  | _ => decodeFamilyF (regOf x) (y ++ n)

/-- `Decode(w)` of R64, total on all 65536 words. -/
def decodeWord (w : Word) : Decoded :=
  decodeNibbles (nibble3 w) (nibble2 w) (nibble1 w) (nibble0 w)

/-- Decoding a byte sequence: two bytes, big-endian (R60), and the bytes after them. -/
def decodeBytes : List Byte → Except Illegal (Instr × List Byte)
  | hi :: lo :: rest =>
    match decodeWord (wordOfBytes hi lo) with
    | .ok i => .ok (i, rest)
    | .error e => .error e
  | _ => .error .truncated

/-- The host's probe: the instruction the decoder reads from the bytes of the word `w` of `nbits` bits, stored as the hardware
stores it (high byte first, R60), bits above `nbits` zero. -/
def decodeTableWord (nbits w : Nat) : Option Instr :=
  let v : Word := BitVec.ofNat 16 (w % 2 ^ nbits)
  match decodeBytes [v.extractLsb' 8 8, v.extractLsb' 0 8] with
  | .ok (i, _) => some i
  | .error _ => none

/-! ## The encoder -/

/-- A register index as a field (R61). -/
def fieldOf (x : RegIx) : Nibble := BitVec.ofFin x

/-- Formats `NNN`, `XNN`, `XY` (and `XYN`), `X` of R62. -/
def formatNNN (op : Nibble) (nnn : Addr12) : Word := op ++ nnn
/-- Format `XNN` of R62. -/
def formatXNN (op : Nibble) (x : RegIx) (nn : Byte) : Word := op ++ fieldOf x ++ nn
/-- Formats `XY` and `XYN` of R62: the last nibble is the sub-operation or the height. -/
def formatXYN (op : Nibble) (x y : RegIx) (n : Nibble) : Word := op ++ fieldOf x ++ fieldOf y ++ n
/-- Format `X` of R62. -/
def formatX (op : Nibble) (x : RegIx) (sub : Byte) : Word := op ++ fieldOf x ++ sub

/-- The word of an instruction, from the encoding column of R66. The unused `y` of the two shifts is kept. -/
def encode : Instr → Word
  | .cls => 0x00E0#16
  | .ret => 0x00EE#16
  | .jp nnn => formatNNN 0x1 nnn
  | .call nnn => formatNNN 0x2 nnn
  | .seImm x nn => formatXNN 0x3 x nn
  | .sneImm x nn => formatXNN 0x4 x nn
  | .seReg x y => formatXYN 0x5 x y 0x0
  | .ldImm x nn => formatXNN 0x6 x nn
  | .addImm x nn => formatXNN 0x7 x nn
  | .ldReg x y => formatXYN 0x8 x y 0x0
  | .orReg x y => formatXYN 0x8 x y 0x1
  | .andReg x y => formatXYN 0x8 x y 0x2
  | .xorReg x y => formatXYN 0x8 x y 0x3
  | .addReg x y => formatXYN 0x8 x y 0x4
  | .subReg x y => formatXYN 0x8 x y 0x5
  | .shr x y => formatXYN 0x8 x y 0x6
  | .subnReg x y => formatXYN 0x8 x y 0x7
  | .shl x y => formatXYN 0x8 x y 0xE
  | .sneReg x y => formatXYN 0x9 x y 0x0
  | .ldI nnn => formatNNN 0xA nnn
  | .jpV0 nnn => formatNNN 0xB nnn
  | .rnd x nn => formatXNN 0xC x nn
  | .drw x y n => formatXYN 0xD x y (BitVec.ofNat 4 n)
  | .skp x => formatX 0xE x 0x9E
  | .sknp x => formatX 0xE x 0xA1
  | .ldVxDT x => formatX 0xF x 0x07
  | .ldVxK x => formatX 0xF x 0x0A
  | .ldDTVx x => formatX 0xF x 0x15
  | .ldSTVx x => formatX 0xF x 0x18
  | .addI x => formatX 0xF x 0x1E
  | .ldF x => formatX 0xF x 0x29
  | .ldB x => formatX 0xF x 0x33
  | .storeRegs x => formatX 0xF x 0x55
  | .loadRegs x => formatX 0xF x 0x65

/-- The two bytes of an instruction, the one at the lower address first (R60, R73). -/
def emit (i : Instr) : List Byte := [(encode i).extractLsb' 8 8, (encode i).extractLsb' 0 8]

/-! ## The assembler's text (R72, names only: the spec's decision D21) -/

/-- A hexadecimal digit. -/
def hexDigit (k : Nat) : String :=
  ["0", "1", "2", "3", "4", "5", "6", "7", "8", "9", "A", "B", "C", "D", "E", "F"].getD (k % 16) ""

/-- `nn` as a numeral. -/
def hexByte (b : Byte) : String := "0x" ++ hexDigit (b.toNat / 16) ++ hexDigit b.toNat
/-- `nnn` as a numeral. -/
def hexAddr (a : Addr12) : String := "0x" ++ hexDigit (a.toNat / 256) ++ hexDigit (a.toNat / 16) ++ hexDigit a.toNat
/-- `V0` to `VF`. -/
def regText (x : RegIx) : String := "V" ++ hexDigit x.val
/-- The second operand of a shift, written only if it is not 0. -/
def shiftText (y : RegIx) : String := if y = 0 then "" else ", " ++ regText y

/-- An instruction as R72 writes it: the mnemonic, then the operands, the destination first. -/
def Instr.text : Instr → String
  | .cls => "CLS"
  | .ret => "RET"
  | .jp nnn => "JP " ++ hexAddr nnn
  | .call nnn => "CALL " ++ hexAddr nnn
  | .seImm x nn => "SE " ++ regText x ++ ", " ++ hexByte nn
  | .sneImm x nn => "SNE " ++ regText x ++ ", " ++ hexByte nn
  | .seReg x y => "SE " ++ regText x ++ ", " ++ regText y
  | .ldImm x nn => "LD " ++ regText x ++ ", " ++ hexByte nn
  | .addImm x nn => "ADD " ++ regText x ++ ", " ++ hexByte nn
  | .ldReg x y => "LD " ++ regText x ++ ", " ++ regText y
  | .orReg x y => "OR " ++ regText x ++ ", " ++ regText y
  | .andReg x y => "AND " ++ regText x ++ ", " ++ regText y
  | .xorReg x y => "XOR " ++ regText x ++ ", " ++ regText y
  | .addReg x y => "ADD " ++ regText x ++ ", " ++ regText y
  | .subReg x y => "SUB " ++ regText x ++ ", " ++ regText y
  | .shr x y => "SHR " ++ regText x ++ shiftText y
  | .subnReg x y => "SUBN " ++ regText x ++ ", " ++ regText y
  | .shl x y => "SHL " ++ regText x ++ shiftText y
  | .sneReg x y => "SNE " ++ regText x ++ ", " ++ regText y
  | .ldI nnn => "LD I, " ++ hexAddr nnn
  | .jpV0 nnn => "JP V0, " ++ hexAddr nnn
  | .rnd x nn => "RND " ++ regText x ++ ", " ++ hexByte nn
  | .drw x y n => "DRW " ++ regText x ++ ", " ++ regText y ++ ", 0x" ++ hexDigit n
  | .skp x => "SKP " ++ regText x
  | .sknp x => "SKNP " ++ regText x
  | .ldVxDT x => "LD " ++ regText x ++ ", DT"
  | .ldVxK x => "LD " ++ regText x ++ ", K"
  | .ldDTVx x => "LD DT, " ++ regText x
  | .ldSTVx x => "LD ST, " ++ regText x
  | .addI x => "ADD I, " ++ regText x
  | .ldF x => "LD F, " ++ regText x
  | .ldB x => "LD B, " ++ regText x
  | .storeRegs x => "LD [I], " ++ regText x
  | .loadRegs x => "LD " ++ regText x ++ ", [I]"

/-! ## The opcode table -/

/-- One row of R66: `w` is this instruction when `w & mask = pattern`. -/
structure OpRow where
  mnemonic : String
  pattern : Word
  mask : Word
  deriving DecidableEq, Repr

/-- The row of R66 an instruction belongs to (mnemonics as spec/opcode_table.json spells them). -/
def Instr.row : Instr → OpRow
  | .cls => ⟨"CLS", 0x00E0, 0xFFFF⟩
  | .ret => ⟨"RET", 0x00EE, 0xFFFF⟩
  | .jp _ => ⟨"JP_nnn", 0x1000, 0xF000⟩
  | .call _ => ⟨"CALL_nnn", 0x2000, 0xF000⟩
  | .seImm _ _ => ⟨"SE_Vx__nn", 0x3000, 0xF000⟩
  | .sneImm _ _ => ⟨"SNE_Vx__nn", 0x4000, 0xF000⟩
  | .seReg _ _ => ⟨"SE_Vx__Vy", 0x5000, 0xF00F⟩
  | .ldImm _ _ => ⟨"LD_Vx__nn", 0x6000, 0xF000⟩
  | .addImm _ _ => ⟨"ADD_Vx__nn", 0x7000, 0xF000⟩
  | .ldReg _ _ => ⟨"LD_Vx__Vy", 0x8000, 0xF00F⟩
  | .orReg _ _ => ⟨"OR_Vx__Vy", 0x8001, 0xF00F⟩
  | .andReg _ _ => ⟨"AND_Vx__Vy", 0x8002, 0xF00F⟩
  | .xorReg _ _ => ⟨"XOR_Vx__Vy", 0x8003, 0xF00F⟩
  | .addReg _ _ => ⟨"ADD_Vx__Vy", 0x8004, 0xF00F⟩
  | .subReg _ _ => ⟨"SUB_Vx__Vy", 0x8005, 0xF00F⟩
  | .shr _ _ => ⟨"SHR_Vx", 0x8006, 0xF00F⟩
  | .subnReg _ _ => ⟨"SUBN_Vx__Vy", 0x8007, 0xF00F⟩
  | .shl _ _ => ⟨"SHL_Vx", 0x800E, 0xF00F⟩
  | .sneReg _ _ => ⟨"SNE_Vx__Vy", 0x9000, 0xF00F⟩
  | .ldI _ => ⟨"LD_I__nnn", 0xA000, 0xF000⟩
  | .jpV0 _ => ⟨"JP_V0__nnn", 0xB000, 0xF000⟩
  | .rnd _ _ => ⟨"RND_Vx__nn", 0xC000, 0xF000⟩
  | .drw _ _ _ => ⟨"DRW_Vx__Vy__n", 0xD000, 0xF000⟩
  | .skp _ => ⟨"SKP_Vx", 0xE09E, 0xF0FF⟩
  | .sknp _ => ⟨"SKNP_Vx", 0xE0A1, 0xF0FF⟩
  | .ldVxDT _ => ⟨"LD_Vx__DT", 0xF007, 0xF0FF⟩
  | .ldVxK _ => ⟨"LD_Vx__K", 0xF00A, 0xF0FF⟩
  | .ldDTVx _ => ⟨"LD_DT__Vx", 0xF015, 0xF0FF⟩
  | .ldSTVx _ => ⟨"LD_ST__Vx", 0xF018, 0xF0FF⟩
  | .addI _ => ⟨"ADD_I__Vx", 0xF01E, 0xF0FF⟩
  | .ldF _ => ⟨"LD_F__Vx", 0xF029, 0xF0FF⟩
  | .ldB _ => ⟨"LD_B__Vx", 0xF033, 0xF0FF⟩
  | .storeRegs _ => ⟨"LD__I___Vx", 0xF055, 0xF0FF⟩
  | .loadRegs _ => ⟨"LD_Vx___I", 0xF065, 0xF0FF⟩

/-- One instruction of each row, in the order of R66. -/
def sampleInstrs : List Instr :=
  [.cls, .ret, .jp 0, .call 0, .seImm 0 0, .sneImm 0 0, .seReg 0 0, .ldImm 0 0, .addImm 0 0,
   .ldReg 0 0, .orReg 0 0, .andReg 0 0, .xorReg 0 0, .addReg 0 0, .subReg 0 0, .shr 0 0, .subnReg 0 0, .shl 0 0,
   .sneReg 0 0, .ldI 0, .jpV0 0, .rnd 0 0, .drw 0 0 0, .skp 0, .sknp 0,
   .ldVxDT 0, .ldVxK 0, .ldDTVx 0, .ldSTVx 0, .addI 0, .ldF 0, .ldB 0, .storeRegs 0, .loadRegs 0]

/-- The 34 rows of R66. -/
def opcodeTable : List OpRow := sampleInstrs.map Instr.row

/-- `w & mask = pattern` (R66). -/
abbrev OpRow.Matches (r : OpRow) (w : Word) : Prop := w &&& r.mask = r.pattern

end Sys2Proof
end

