-- ==== Sys2Proof/Config.lean ====
section
/-! DEFINITION. The fixed numbers of the CORE (spec/00_scope.md R6), its model arguments with their defaults (R6), the font
table (spec/20_memory.md R48) and the one free value, the random byte (spec/41_load_alu_random.md R133). -/

namespace Sys2Proof.Config

/-- `MEM_SIZE`: 4096 bytes (R6, R40). -/
def memSize : Nat := 4096

/-- `PROG_BASE`: the load address and the entry address (R6, R41, R250). -/
def progBase : Nat := 0x200

/-- `PROG_MAX`: the longest program image (R6, R49). -/
def progMax : Nat := 3584

/-- `DISP_W`: display columns (R6, R22). -/
abbrev dispW : Nat := 64

/-- `DISP_H`: display rows (R6, R22). -/
abbrev dispH : Nat := 32

/-- `NKEYS`: key bits (R6, R23). -/
abbrev nKeys : Nat := 16

/-- `FONT_STRIDE`: bytes of one glyph (R6, R48). -/
def fontStride : Nat := 5

/-- The values of `ADD_FLAG_RULE` (R6, R126, spec/90_conflicts.md C1). -/
inductive AddFlagRule where
  | ltFF
  | geFF
  | gtFF
  deriving DecidableEq, Repr

/-- The values of `SHL_FLAG_RULE` (R6, R130). -/
inductive ShlFlagRule where
  | rawMask
  | bit
  deriving DecidableEq, Repr

/-- The values of `VF_WRITE_ORDER` (R6, R121). -/
inductive VfWriteOrder where
  | flagLast
  | resultLast
  deriving DecidableEq, Repr

/-- The model arguments of R6. They are held beside the state and no step changes them, so a statement about every state is a
statement about every value of them. DESIGN CHOICE, safe (assumption 3). -/
structure Params where
  /-- `IPF`: instructions per tick, any natural number (R6, R225 f). -/
  ipf : Nat
  /-- `STACK_DEPTH`: `none` is unbounded (R6, R16). -/
  stackDepth : Option Nat
  /-- `ADD_FLAG_RULE` (R126). -/
  addFlagRule : AddFlagRule
  /-- `SHL_FLAG_RULE` (R130). -/
  shlFlagRule : ShlFlagRule
  /-- `VF_WRITE_ORDER` (R121). -/
  vfWriteOrder : VfWriteOrder
  deriving DecidableEq, Repr

/-- The defaults of R6. -/
def defaultParams : Params :=
  { ipf := 10
    stackDepth := none
    addFlagRule := .ltFF
    shlFlagRule := .rawMask
    vfWriteOrder := .flagLast }

/-- The 80 font bytes, glyph `d` at `5 * d` (R48; the bytes themselves are the spec's decision D3). -/
def font : List Byte :=
  [0xF0, 0x90, 0x90, 0x90, 0xF0] ++ [0x20, 0x60, 0x20, 0x20, 0x70] ++
  [0xF0, 0x10, 0xF0, 0x80, 0xF0] ++ [0xF0, 0x10, 0xF0, 0x10, 0xF0] ++
  [0x90, 0x90, 0xF0, 0x10, 0x10] ++ [0xF0, 0x80, 0xF0, 0x10, 0xF0] ++
  [0xF0, 0x80, 0xF0, 0x90, 0xF0] ++ [0xF0, 0x10, 0x20, 0x40, 0x40] ++
  [0xF0, 0x90, 0xF0, 0x90, 0xF0] ++ [0xF0, 0x90, 0xF0, 0x10, 0xF0] ++
  [0xF0, 0x90, 0xF0, 0x90, 0x90] ++ [0xE0, 0x90, 0xE0, 0x90, 0xE0] ++
  [0xF0, 0x80, 0x80, 0x80, 0xF0] ++ [0xE0, 0x90, 0x90, 0x90, 0xE0] ++
  [0xF0, 0x80, 0xF0, 0x80, 0xF0] ++ [0xF0, 0x80, 0xF0, 0x80, 0x80]

/-- FREE VALUE. The byte the environment supplies to the `RND` that runs when `n` draws have been taken before it (R133: "a free
input (a draw) and a claim must hold for every value"). It has no body: nothing can be proved of its value (assumption 2). -/
opaque randomByte : Nat → Byte

end Sys2Proof.Config
end

