-- ==== Sys2Proof/Machine/State.lean ====
section
/-! DEFINITION. The state of the machine: the twelve elements of spec/10_state.md R10, and the model's own fields that hold the
model arguments, the cycle driver's position and the environment's inputs (R25, R28 d). -/

namespace Sys2Proof.Machine

/-- Memory as the bytes that differ from their value at reset, addresses rising (`Memory.wf` in Machine/Ops.lean). -/
abbrev Memory := List Host.Cell

/-- `FB`: 32 rows of 64 pixels, `true` is lit (R22). -/
abbrev Display := Vector (Vector Bool Config.dispW) Config.dispH

/-- The causes a running CORE can record (spec/60_exceptions.md R211). -/
inductive FatalCause where
  /-- code 1: the fetched word is illegal (R213) -/
  | decodeError
  /-- code 2: `RET` on an empty call stack (R214) -/
  | stackUnderflow
  /-- code 3: `CALL` on a full call stack of finite depth (R215) -/
  | stackOverflow
  deriving DecidableEq, Repr

/-- The record the fatal latch holds: the cause, the word being executed and the address it was fetched from (R24). -/
structure FatalRecord where
  cause : FatalCause
  word : Word
  addr : Word
  deriving DecidableEq, Repr

/-- The transactions by which the host moves the CORE (R220). A key index is a plain number: the operand is four bits wide in the
spec, and an event with a wider number is dropped whole (R230). -/
inductive HostEvent where
  /-- `Reset` (R250) -/
  | reset
  /-- `Load(image)` (R252) -/
  | load (image : List Byte)
  /-- `Tick` (R224) -/
  | tick
  /-- `KeyPress(k)` (R221) -/
  | keyPress (k : Nat)
  /-- `KeyRelease(k)` (R222) -/
  | keyRelease (k : Nat)
  deriving DecidableEq, Repr

/-- Why a step can stop. -/
inductive Fault where
  /-- The CORE is in the fatal state and the host has nothing more to send it. Raised by `driverStep` (Machine/Driver.lean) when
  the latch is set and the host's script is empty, never by an instruction: an instruction's fatal entry is a next state (R212).
  Safe: R212, R218 and U10 say that no further move exists. -/
  | halted (record : FatalRecord)
  deriving DecidableEq, Repr

/-- Why the model gives a situation no meaning. -/
inductive Refusal where
  /-- An instruction without a meaning. Raised by no arm of this model. Safe. -/
  | notModelled (mnemonic : String)
  /-- A program image longer than 3584 bytes. Raised by the host transaction `Load` (R252, U9: "refuse"). Safe. -/
  | loadOverflow (length : Nat)
  /-- A `Load` that is not the one load between `Reset` and the first `Tick`. Raised by the host transaction `Load` (R252: "a model
  gives the host no `Load` move later"). Safe. -/
  | loadOutOfOrder
  deriving DecidableEq, Repr

/-- What a step or a meaning answers. -/
abbrev Outcome := Host.Outcome

/-- The state of the machine. The first twelve fields are the elements of R10; the rest are the model's own. -/
@[ext]
structure State where
  /-- `MEM` (R19, R40) -/
  mem : Memory
  /-- `V[0..15]` (R11, R12) -/
  v : Vector Byte 16
  /-- `I` (R13) -/
  i : Word
  /-- `PC` (R14) -/
  pc : Word
  /-- `STACK`, the top first (R16) -/
  stack : List Word
  /-- `DT` (R17) -/
  dt : Byte
  /-- `ST` (R18) -/
  st : Byte
  /-- `PAUSED` (R20) -/
  paused : Bool
  /-- `WAITREG` (R21) -/
  waitReg : Option RegIx
  /-- `FB` (R22) -/
  fb : Display
  /-- `KEYS` (R23) -/
  keys : Vector Bool Config.nKeys
  /-- `FAULT` (R24) -/
  fault : Option FatalRecord
  /-- the model arguments of R6, changed by no step (assumption 3) -/
  params : Config.Params
  /-- steps of the current tick still to run, 0 between ticks: the loop counter of R28 d (assumption 4) -/
  left : Nat
  /-- the transactions the host issues next, oldest first; empty: it keeps ticking (R223, assumption 4) -/
  host : List HostEvent
  /-- `Load` is still allowed: after `Reset`, before a `Load` or `Tick` (R252, assumption 5) -/
  loadable : Bool
  /-- random bytes drawn so far: the index of the next free value (R133, assumption 2) -/
  draws : Nat
  deriving DecidableEq, Repr

/-- The machine right after `Reset` (R29, R250): memory at its reset contents (nothing listed), entry address 0x200, everything
else zero, empty or none. The model's own fields: the default arguments of R6, between ticks, an empty script, no draw taken. -/
def State.reset : State :=
  { mem := []
    v := Vector.replicate 16 0
    i := 0
    pc := 0x200
    stack := []
    dt := 0
    st := 0
    paused := false
    waitReg := none
    fb := Vector.replicate Config.dispH (Vector.replicate Config.dispW false)
    keys := Vector.replicate Config.nKeys false
    fault := none
    params := Config.defaultParams
    left := 0
    host := []
    loadable := true
    draws := 0 }

end Sys2Proof.Machine
end

