-- ==== Sys2Proof/Machine/Ops.lean ====
section
/-! DEFINITION. The named operations over memory, registers, stack, timers, keys and the display, the fatal entry, and the
sequencing of outcomes. They are the primitives of spec/00_scope.md R8: the only ways a meaning touches state. -/

namespace Sys2Proof.Machine

/-- Do `f` after an outcome that is a next state. -/
def andThen (o : Outcome State Fault Refusal) (f : State → Outcome State Fault Refusal) : Outcome State Fault Refusal :=
  match o with
  | .next s => f s
  | .fault r => .fault r
  | .refused r => .refused r

/-! ## Memory -/

/-- What a byte that nothing has written reads as: the font below 0x050, zero elsewhere (spec/10_state.md R29, R48). -/
def unlisted (a : Nat) : Byte := Config.font.getD a 0

/-- The byte at the address `a` of the array (R43). -/
def Memory.read : Memory → Nat → Byte
  | [], a => unlisted a
  | (k, b) :: rest, a => if k = a then b else Memory.read rest a

/-- Drop the cell if its byte is what an unlisted address reads as. -/
def Memory.cons (a : Nat) (b : Byte) (rest : Memory) : Memory :=
  if b = unlisted a then rest else (a, b) :: rest

/-- Store `b` at the address `a` of the array, keeping the canonical form (R45). -/
def Memory.write : Memory → Nat → Byte → Memory
  | [], a, b => Memory.cons a b []
  | (k, c) :: rest, a, b =>
    if k < a then (k, c) :: Memory.write rest a b
    else if k = a then Memory.cons a b rest
    else Memory.cons a b ((k, c) :: rest)

/-- The canonical form: addresses strictly rising and inside the array, no cell equal to what an unlisted address reads as. -/
abbrev Memory.wf (m : Memory) : Prop :=
  m.Pairwise (fun c d => c.1 < d.1) ∧ ∀ c ∈ m, c.1 < Config.memSize ∧ c.2 ≠ unlisted c.1

/-- The effective address of a 16-bit value on the address port: its low 12 bits (spec/20_memory.md R42). -/
def effAddr (addr : Word) : Nat := addr.toNat % Config.memSize

/-- `MemRead(addr, 1)` (R43). -/
def State.memRead (s : State) (addr : Word) : Byte := s.mem.read (effAddr addr)

/-- `MemWrite(addr, 1, b)` (R45). -/
def State.memWrite (addr : Word) (b : Byte) (s : State) : State := { s with mem := s.mem.write (effAddr addr) b }

/-- The instruction fetch `MemRead(PC, 2)`, big-endian, each byte's address reduced by itself (R44). -/
def State.fetch (s : State) : Word := wordOfBytes (s.memRead s.pc) (s.memRead (s.pc + 1))

/-! ## Registers -/

/-- Read `V[x]` (R11). -/
def State.reg (s : State) (x : RegIx) : Byte := s.v[x]

/-- Write `V[x]` (R11). -/
def State.setReg (x : RegIx) (b : Byte) (s : State) : State := { s with v := s.v.set x b }

/-- Write `I` (R13). -/
def State.setI (w : Word) (s : State) : State := { s with i := w }

/-- Write `PC` (R14). -/
def State.setPc (w : Word) (s : State) : State := { s with pc := w }

/-- Write `DT` (R17). -/
def State.setDT (b : Byte) (s : State) : State := { s with dt := b }

/-- Write `ST` (R18). -/
def State.setST (b : Byte) (s : State) : State := { s with st := b }

/-- `PC <- (PC + 2) mod 65536`: the pre-increment of a step (spec/30_encoding.md R70), and what a taken skip adds (R104). -/
def State.advancePc (s : State) : State := s.setPc (s.pc + 2)

/-- The address of the instruction being executed: `PC` holds the next one (R14: "The instruction's own address is `PC − 2`"). -/
def State.ownAddr (s : State) : Word := s.pc - 2

/-! ## The call stack -/

/-- Write the whole `STACK` (R16). -/
def State.setStack (l : List Word) (s : State) : State := { s with stack := l }

/-- `Push(v)`: the new top (R16). -/
def State.push (w : Word) (s : State) : State := s.setStack (w :: s.stack)

/-- The stack already holds `STACK_DEPTH` entries; never with an unbounded depth (R16, R103). -/
def State.stackFull (s : State) : Bool :=
  match s.params.stackDepth with
  | none => false
  | some n => n ≤ s.stack.length

/-! ## The fatal entry (taking the CORE's one kind of exception) -/

/-- `raise Fatal(cause, word, addr)`: the latch takes the record; nothing else changes (spec/60_exceptions.md R212). There is no
return from it: only `Reset` leaves the fatal state (R218). -/
def State.raiseFatal (c : FatalCause) (word addr : Word) (s : State) : State := { s with fault := some ⟨c, word, addr⟩ }

/-- The numeric code of a cause (R211). -/
def FatalCause.code : FatalCause → Nat
  | .decodeError => 1
  | .stackUnderflow => 2
  | .stackOverflow => 3

/-- `FAULT` is none and `PAUSED` is 0: a step may be taken (R70, R224). -/
def State.running (s : State) : Bool := s.fault.isNone && !s.paused

/-! ## Waiting for a key -/

/-- `PAUSED <- 1`, `WAITREG <- x` (spec/44_keys_timers.md R194). -/
def State.awaitKey (x : RegIx) (s : State) : State := { s with paused := true, waitReg := some x }

/-- `PAUSED <- 0`, `WAITREG <- none` (R221). -/
def State.resume (s : State) : State := { s with paused := false, waitReg := none }

/-- Write `Key[k]` (R221, R222). -/
def State.setKey (k : Fin 16) (b : Bool) (s : State) : State := { s with keys := s.keys.set k b }

/-- `IsPressed(v)`: `Key[v]` if `v ≤ 15`, else 0; not reduced to its low nibble (R193). -/
def State.isPressed (s : State) (b : Byte) : Bool := if h : b.toNat < 16 then s.keys[b.toNat]'h else false

/-! ## Timers -/

/-- A timer's decrement: 0 stays 0 (R226). -/
def decrement (b : Byte) : Byte := if b = 0 then 0 else b - 1

/-- The timer countdown at the end of a tick, each timer by itself (R224, R226). -/
def State.countdown (s : State) : State := { s with dt := decrement s.dt, st := decrement s.st }

/-! ## The display controller -/

/-- `Pix[c, r]` at wrapped coordinates: `IsLit(cx, cy)` (spec/43_display.md R171). -/
def Display.isLit (d : Display) (cx cy : Nat) : Bool :=
  (d[cy % 32]'(Nat.mod_lt _ (by decide)))[cx % 64]'(Nat.mod_lt _ (by decide))

/-- Set `Pix[cx mod 64, cy mod 32]`. -/
def Display.setPix (d : Display) (cx cy : Nat) (b : Bool) : Display :=
  d.set (cy % 32) ((d[cy % 32]'(Nat.mod_lt _ (by decide))).set (cx % 64) b (Nat.mod_lt _ (by decide)))
    (Nat.mod_lt _ (by decide))

/-- `Toggle(cx, cy)`: the display after it, and the pixel's new value (R170). -/
def Display.toggle (d : Display) (cx cy : Nat) : Display × Bool :=
  let lit := !d.isLit cx cy
  (d.setPix cx cy lit, lit)

/-- `Clear()`: every pixel unlit (R172). -/
def Display.cleared : Display := Vector.replicate Config.dispH (Vector.replicate Config.dispW false)

/-- Write `FB`. -/
def State.setFb (d : Display) (s : State) : State := { s with fb := d }

/-! ## The random byte -/

/-- The draw of this execution: the free value at the draw counter (spec/41_load_alu_random.md R133, assumption 2). -/
def State.draw (s : State) : Byte := Config.randomByte s.draws

/-- The draw is consumed: the next `RND` has a fresh one (R133). -/
def State.tookDraw (s : State) : State := { s with draws := s.draws + 1 }

end Sys2Proof.Machine
end

