-- ==== Sys2Proof/Machine/Operands.lean ====
section
/-! DEFINITION. The operand forms (spec/30_encoding.md R63, spec/42_index_memory.md R150): registers are read with `State.reg`,
immediates are unsigned and zero-extended, and the one addressing mode is the byte at `I + k`. -/

namespace Sys2Proof.Machine

/-- `zext_16(v)` (R7, R63). -/
def zext16 {n : Nat} (v : BitVec n) : Word := v.setWidth 16

/-- The 16-bit value `base + k` put on the address port; the port reduces it mod 4096 (R42, R150). -/
def offsetAddr (base : Word) (k : Nat) : Word := base + BitVec.ofNat 16 k

/-- The general register with number `k`; every loop that uses it counts below 16 (R155, R156). -/
def regNo (k : Nat) : RegIx := Fin.ofNat 16 k

/-- The byte `v div 100` of `LD B, Vx` (R154). -/
def hundreds (b : Byte) : Byte := BitVec.ofNat 8 (b.toNat / 100)

/-- The byte `(v div 10) mod 10` of `LD B, Vx` (R154). -/
def tens (b : Byte) : Byte := BitVec.ofNat 8 (b.toNat / 10 % 10)

/-- The byte `v mod 10` of `LD B, Vx` (R154). -/
def ones (b : Byte) : Byte := BitVec.ofNat 8 (b.toNat % 10)

/-- The bit of sprite column `j`: bit `7 − j` of the row byte (spec/43_display.md R173). -/
def spriteBit (row : Byte) (j : Nat) : Bool := row.getLsbD (7 - j)

end Sys2Proof.Machine
end

