-- ==== Sys2Proof/Machine/Flags.lean ====
section
/-! DEFINITION. Every flag computation of the instruction set (spec/10_state.md R12) and the order of the two writes of a
flag-writing ALU instruction (spec/41_load_alu_random.md R121). The collision flag of `DRW` is written pixel by pixel, in
Machine/DisplayInstr.lean. -/

namespace Sys2Proof.Machine

/-- 1 or 0 as a byte. -/
def boolByte (b : Bool) : Byte := if b then 1 else 0

/-- The flag of `ADD Vx, Vy`, from the unwrapped sum (R126). -/
def addFlag (rule : Config.AddFlagRule) (a b : Byte) : Byte :=
  match rule with
  | .ltFF => boolByte (a.toNat + b.toNat < 0xFF)
  | .geFF => boolByte (0xFF ≤ a.toNat + b.toNat)
  | .gtFF => boolByte (0xFF < a.toNat + b.toNat)

/-- The flag of `SUB` and `SUBN`: strictly greater (R127, R129). -/
def subFlag (a b : Byte) : Byte := boolByte (b.toNat < a.toNat)

/-- The flag of `SHR`: bit 0 (R128). -/
def shrFlag (a : Byte) : Byte := a &&& 1

/-- The flag of `SHL`: bit 7 as it stands, or as 0 or 1 (R130). -/
def shlFlag (rule : Config.ShlFlagRule) (a : Byte) : Byte :=
  match rule with
  | .rawMask => a &&& 0x80
  | .bit => a >>> 7

/-- `WriteBoth(x, r, f)` (R121). -/
def writeBoth (x : RegIx) (r f : Byte) (s : State) : State :=
  match s.params.vfWriteOrder with
  | .flagLast => (s.setReg x r).setReg flagReg f
  | .resultLast => (s.setReg flagReg f).setReg x r

end Sys2Proof.Machine
end

