-- ==== Sys2Proof/Machine/Alu.lean ====
section
/-! DEFINITION. Load, arithmetic, logic, shift and random instructions (spec/41_load_alu_random.md). Operands are read before
anything is written (R121). -/

namespace Sys2Proof.Machine

/-- `LD Vx, nn` (R122). -/
def execLdImm (x : RegIx) (nn : Byte) (s : State) : Outcome State Fault Refusal :=
  .next (s.setReg x nn)

/-- `ADD Vx, nn` (R123): no flag. -/
def execAddImm (x : RegIx) (nn : Byte) (s : State) : Outcome State Fault Refusal :=
  .next (s.setReg x (s.reg x + nn))

/-- `LD Vx, Vy` (R124). -/
def execLdReg (x y : RegIx) (s : State) : Outcome State Fault Refusal :=
  .next (s.setReg x (s.reg y))

/-- `OR Vx, Vy` (R125). -/
def execOr (x y : RegIx) (s : State) : Outcome State Fault Refusal :=
  .next (s.setReg x (s.reg x ||| s.reg y))

/-- `AND Vx, Vy` (R131). -/
def execAnd (x y : RegIx) (s : State) : Outcome State Fault Refusal :=
  .next (s.setReg x (s.reg x &&& s.reg y))

/-- `XOR Vx, Vy` (R132). -/
def execXor (x y : RegIx) (s : State) : Outcome State Fault Refusal :=
  .next (s.setReg x (s.reg x ^^^ s.reg y))

/-- `ADD Vx, Vy` (R126). -/
def execAddReg (x y : RegIx) (s : State) : Outcome State Fault Refusal :=
  .next (writeBoth x (s.reg x + s.reg y) (addFlag s.params.addFlagRule (s.reg x) (s.reg y)) s)

/-- `SUB Vx, Vy` (R127). -/
def execSub (x y : RegIx) (s : State) : Outcome State Fault Refusal :=
  .next (writeBoth x (s.reg x - s.reg y) (subFlag (s.reg x) (s.reg y)) s)

/-- `SHR Vx` (R128): in place; `y` plays no part. -/
def execShr (x _y : RegIx) (s : State) : Outcome State Fault Refusal :=
  .next (writeBoth x (s.reg x >>> 1) (shrFlag (s.reg x)) s)

/-- `SUBN Vx, Vy` (R129). -/
def execSubn (x y : RegIx) (s : State) : Outcome State Fault Refusal :=
  .next (writeBoth x (s.reg y - s.reg x) (subFlag (s.reg y) (s.reg x)) s)

/-- `SHL Vx` (R130): in place; `y` plays no part. -/
def execShl (x _y : RegIx) (s : State) : Outcome State Fault Refusal :=
  .next (writeBoth x (s.reg x <<< 1) (shlFlag s.params.shlFlagRule (s.reg x)) s)

/-- `RND Vx, nn` (R133): a draw is consumed whatever `nn` is. -/
def execRnd (x : RegIx) (nn : Byte) (s : State) : Outcome State Fault Refusal :=
  .next ((s.setReg x (s.draw &&& nn)).tookDraw)

end Sys2Proof.Machine
end

