-- ==== Sys2Proof/Machine/Control.lean ====
section
/-! DEFINITION. The control transfer instructions (spec/40_control_transfer.md). `PC` already holds `a + 2` (R100). -/

namespace Sys2Proof.Machine

/-- A skip: a further 2 is added to `PC` if the condition holds (R100, R104). -/
def skipIf (cond : Bool) (s : State) : State := if cond then s.advancePc else s

/-- `RET` (R101): pop into `PC`; on an empty stack the fatal entry with the word `00EE`. -/
def execRet (s : State) : Outcome State Fault Refusal :=
  match s.stack with
  | [] => .next (s.raiseFatal .stackUnderflow (encode .ret) s.ownAddr)
  | top :: rest => .next ((s.setStack rest).setPc top)

/-- `JP nnn` (R102). -/
def execJp (nnn : Addr12) (s : State) : Outcome State Fault Refusal :=
  .next (s.setPc (zext16 nnn))

/-- `CALL nnn` (R103): push `a + 2`, jump; on a full stack of finite depth the fatal entry, before anything is pushed. -/
def execCall (nnn : Addr12) (s : State) : Outcome State Fault Refusal :=
  if s.stackFull then .next (s.raiseFatal .stackOverflow (encode (.call nnn)) s.ownAddr)
  else .next ((s.push s.pc).setPc (zext16 nnn))

/-- `SE Vx, nn` (R104). -/
def execSeImm (x : RegIx) (nn : Byte) (s : State) : Outcome State Fault Refusal :=
  .next (skipIf (s.reg x == nn) s)

/-- `SNE Vx, nn` (R105). -/
def execSneImm (x : RegIx) (nn : Byte) (s : State) : Outcome State Fault Refusal :=
  .next (skipIf (s.reg x != nn) s)

/-- `SE Vx, Vy` (R106). -/
def execSeReg (x y : RegIx) (s : State) : Outcome State Fault Refusal :=
  .next (skipIf (s.reg x == s.reg y) s)

/-- `SNE Vx, Vy` (R107). -/
def execSneReg (x y : RegIx) (s : State) : Outcome State Fault Refusal :=
  .next (skipIf (s.reg x != s.reg y) s)

/-- `JP V0, nnn` (R108): the sum stays in 16 bits. -/
def execJpV0 (nnn : Addr12) (s : State) : Outcome State Fault Refusal :=
  .next (s.setPc (zext16 nnn + zext16 (s.reg 0)))

end Sys2Proof.Machine
end

