-- ==== Sys2Proof/Machine/DisplayInstr.lean ====
section
/-! DEFINITION. The display instructions (spec/43_display.md R174, R175). -/

namespace Sys2Proof.Machine

/-- `CLS` (R175). -/
def execCls (s : State) : Outcome State Fault Refusal :=
  .next (s.setFb Display.cleared)

/-- One sprite pixel that is 1: toggle; a pixel that is now unlit sets `VF` (R174). -/
def plot (cx cy : Nat) (s : State) : State :=
  let (d, lit) := s.fb.toggle cx cy
  if lit then s.setFb d else (s.setFb d).setReg flagReg 1

/-- One sprite row at column `x0` and row `cy`, columns left to right (R173, R174). -/
def drawRow (row : Byte) (x0 cy : Nat) (s : State) : State :=
  (List.range 8).foldl (fun t j => if spriteBit row j then plot (x0 + j) cy t else t) s

/-- The `n` rows of a sprite, top to bottom, read from `base` on (R174). -/
def drawRows (base : Word) (x0 y0 n : Nat) (s : State) : State :=
  (List.range n).foldl (fun t k => drawRow (t.memRead (offsetAddr base k)) x0 (y0 + k) t) s

/-- `DRW Vx, Vy, n` (R174): coordinates and base are latched before `VF` is cleared (the spec's decision D13). -/
def execDrw (x y : RegIx) (n : Nat) (s : State) : Outcome State Fault Refusal :=
  .next (drawRows s.i (s.reg x).toNat (s.reg y).toNat n (s.setReg flagReg 0))

end Sys2Proof.Machine
end

