-- ==== Sys2Proof/Machine/IndexMemory.lean ====
section
/-! DEFINITION. Index register and memory instructions (spec/42_index_memory.md). No access changes `I` (R150). -/

namespace Sys2Proof.Machine

/-- `LD I, nnn` (R151). -/
def execLdI (nnn : Addr12) (s : State) : Outcome State Fault Refusal :=
  .next (s.setI (zext16 nnn))

/-- `ADD I, Vx` (R152): 16-bit wraparound, no flag. -/
def execAddI (x : RegIx) (s : State) : Outcome State Fault Refusal :=
  .next (s.setI (s.i + zext16 (s.reg x)))

/-- `LD F, Vx` (R153): the whole byte times 5. -/
def execLdF (x : RegIx) (s : State) : Outcome State Fault Refusal :=
  .next (s.setI (zext16 (s.reg x) * 5))

/-- `LD B, Vx` (R154): hundreds, tens, ones at `I`, `I + 1`, `I + 2`. -/
def execLdB (x : RegIx) (s : State) : Outcome State Fault Refusal :=
  let b := s.reg x
  .next (((s.memWrite s.i (hundreds b)).memWrite (offsetAddr s.i 1) (tens b)).memWrite (offsetAddr s.i 2) (ones b))

/-- The first `n` iterations of the block store: `MemWrite(I + k, 1, V[k])` for `k = 0 .. n − 1` (R155). -/
def storeBlock (n : Nat) (s : State) : State :=
  (List.range n).foldl (fun t k => t.memWrite (offsetAddr t.i k) (t.reg (regNo k))) s

/-- The first `n` iterations of the block load: `V[k] <- MemRead(I + k, 1)` for `k = 0 .. n − 1` (R156). -/
def loadBlock (n : Nat) (s : State) : State :=
  (List.range n).foldl (fun t k => t.setReg (regNo k) (t.memRead (offsetAddr t.i k))) s

/-- `LD [I], Vx` (R155): registers 0 to `x − 1`, not including `x`. -/
def execStoreRegs (x : RegIx) (s : State) : Outcome State Fault Refusal :=
  .next (storeBlock x.val s)

/-- `LD Vx, [I]` (R156): registers 0 to `x − 1`, not including `x`. -/
def execLoadRegs (x : RegIx) (s : State) : Outcome State Fault Refusal :=
  .next (loadBlock x.val s)

end Sys2Proof.Machine
end

