-- ==== Sys2Proof/Machine/KeysTimers.lean ====
section
/-! DEFINITION. Key and timer instructions (spec/44_keys_timers.md). -/

namespace Sys2Proof.Machine

/-- `SKP Vx` (R190). -/
def execSkp (x : RegIx) (s : State) : Outcome State Fault Refusal :=
  .next (skipIf (s.isPressed (s.reg x)) s)

/-- `SKNP Vx` (R191). -/
def execSknp (x : RegIx) (s : State) : Outcome State Fault Refusal :=
  .next (skipIf (!s.isPressed (s.reg x)) s)

/-- `LD Vx, DT` (R192). -/
def execLdVxDT (x : RegIx) (s : State) : Outcome State Fault Refusal :=
  .next (s.setReg x s.dt)

/-- `LD Vx, K` (R194): the CORE waits; `V[x]` is written by the key press that ends the wait (R221). -/
def execLdVxK (x : RegIx) (s : State) : Outcome State Fault Refusal :=
  .next (s.awaitKey x)

/-- `LD DT, Vx` (R195). -/
def execLdDTVx (x : RegIx) (s : State) : Outcome State Fault Refusal :=
  .next (s.setDT (s.reg x))

/-- `LD ST, Vx` (R196). -/
def execLdSTVx (x : RegIx) (s : State) : Outcome State Fault Refusal :=
  .next (s.setST (s.reg x))

end Sys2Proof.Machine
end

