-- ==== Sys2Proof/Machine/Driver.lean ====
section
/-! DEFINITION. The instruction cycle (spec/30_encoding.md R70), the cycle driver and the host's transactions
(spec/60_exceptions.md R220 to R226, spec/70_reset_and_hazards.md R250, R252), one move of the whole system, and the host's read
ports (R231 to R233). -/

namespace Sys2Proof.Machine

/-! ## The instruction cycle -/

/-- `Step()` of R70: fetch, pre-increment, decode, execute. An illegal word is the fatal entry `DecodeError` with the word and the
address it was fetched from (R213). -/
def stepInstr (s : State) : Outcome State Fault Refusal :=
  match decodeWord s.fetch with
  | .ok i => exec i s.advancePc
  | .error _ => .next (s.advancePc.raiseFatal .decodeError s.fetch s.pc)

/-! ## The tick, as R224 writes it -/

/-- The `repeat` loop of R224: `n` iterations, each a step only if running. -/
def quantumLoop : Nat → State → Outcome State Fault Refusal
  | 0, s => .next s
  | n + 1, s => andThen (if s.running then stepInstr s else .next s) (quantumLoop n)

/-- What follows the loop: the timers count if the CORE is running (R224, R226). -/
def tickEnd (s : State) : State := if s.running then s.countdown else s

/-- `Tick()` of R224 as one transaction. `step` runs it one instruction at a time; that the two agree is a statement of
Certificates/Slice0/Obligations.lean. -/
def tick (s : State) : Outcome State Fault Refusal :=
  if s.fault.isSome then .next s
  else andThen (quantumLoop s.params.ipf s) (fun t => .next (tickEnd t))

/-! ## The tick, one instruction a move -/

/-- After an instruction with `k` steps of the tick left: a CORE that stopped running has no step left in this tick and no
countdown (R225 b, d); the last step ends the tick with the countdown (R226). -/
def closeStep (k : Nat) (s : State) : State :=
  if s.running then
    match k with
    | 0 => { s.countdown with left := 0 }
    | n + 1 => { s with left := n + 1 }
  else { s with left := 0 }

/-- One instruction inside a tick, after which `k` steps of it are left. -/
def quantumStep (k : Nat) (s : State) : Outcome State Fault Refusal :=
  andThen (stepInstr s) (fun t => .next (closeStep k t))

/-- A `Tick` arrives: nothing in the fatal state, nothing while awaiting a key, else its first step; with `IPF = 0` only the
countdown (R224, R225 a, f). From the first tick on `Load` is not allowed (R252). -/
def startTick (s : State) : Outcome State Fault Refusal :=
  if s.fault.isSome then .next s
  else
    let t := { s with loadable := false }
    if t.paused then .next t
    else
      match t.params.ipf with
      | 0 => .next t.countdown
      | k + 1 => quantumStep k t

/-! ## The other transactions -/

/-- `Reset` (R250). The model's arguments, the rest of the host's script and the draw counter are not state of the CORE and stay. -/
def resetCore (s : State) : State :=
  { State.reset with params := s.params, host := s.host, draws := s.draws }

/-- The image bytes in order, the first at `base` (R49, R252). -/
def placeImage (base : Nat) : List Byte → State → State
  | [], s => s
  | b :: rest, s => placeImage (base + 1) rest (s.memWrite (BitVec.ofNat 16 base) b)

/-- `Load(image)` (R252): once, after `Reset` and before the first `Tick`; an image of more than 3584 bytes is refused. -/
def load (image : List Byte) (s : State) : Outcome State Fault Refusal :=
  if !s.loadable then .refused .loadOutOfOrder
  else if Config.progMax < image.length then .refused (.loadOverflow image.length)
  else .next { placeImage Config.progBase image s with loadable := false }

/-- A pending wait is completed by the key: `V[r] <- zext_8(k)`, running again (R221). -/
def completeWait (k : Fin 16) (s : State) : State :=
  match s.waitReg with
  | none => s
  | some r => (s.setReg r (BitVec.ofNat 8 k.val)).resume

/-- `KeyPress(k)` (R221); an index above 15 is dropped whole (R230). -/
def keyPress (k : Nat) (s : State) : State :=
  if s.fault.isSome then s
  else if h : k < 16 then completeWait ⟨k, h⟩ (s.setKey ⟨k, h⟩ true)
  else s

/-- `KeyRelease(k)` (R222); an index above 15 is dropped whole (R230). -/
def keyRelease (k : Nat) (s : State) : State :=
  if s.fault.isSome then s
  else if h : k < 16 then s.setKey ⟨k, h⟩ false
  else s

/-- One transaction of the host (R220). -/
def transact (e : HostEvent) (s : State) : Outcome State Fault Refusal :=
  match e with
  | .reset => .next (resetCore s)
  | .load image => load image s
  | .tick => startTick s
  | .keyPress k => .next (keyPress k s)
  | .keyRelease k => .next (keyRelease k s)

/-! ## One move of the whole system -/

/-- One move. Inside a tick the next instruction runs, back to back, with no transaction between (R223). Between ticks the host
issues its next transaction; with an empty script it ticks, and a CORE in the fatal state then stops for good (R212). -/
def driverStep (s : State) : Outcome State Fault Refusal :=
  match s.left with
  | k + 1 => if s.running then quantumStep k s else .next { s with left := 0 }
  | 0 =>
    match s.host with
    | e :: rest => transact e { s with host := rest }
    | [] =>
      match s.fault with
      | some r => .fault (.halted r)
      | none => startTick s

/-! ## What the next move fetches -/

/-- The host's next transaction is a tick: the first of the script, or the ticks of an empty one. -/
def State.tickNext (s : State) : Bool :=
  match s.host with
  | [] => true
  | .tick :: _ => true
  | _ => false

/-- The very next move fetches an instruction. -/
def State.readyToFetch (s : State) : Bool :=
  s.running && (0 < s.left || (s.tickNext && 0 < s.params.ipf))

/-- The state a move fetches in: a tick that begins takes its transaction off the script and ends the time for `Load`. -/
def State.fetchState (s : State) : State :=
  match s.left with
  | 0 => { s with host := s.host.tail, loadable := false }
  | _ + 1 => s

/-- The steps of the tick left after the next one. -/
def State.leftAfter (s : State) : Nat :=
  match s.left with
  | 0 => s.params.ipf - 1
  | k + 1 => k

/-- Make the next move an instruction: unchanged if it already is one, else the latch and the wait are cleared and a tick is in
progress. -/
def State.makeReady (s : State) : State :=
  if s.readyToFetch then s
  else { s with fault := none, paused := false, waitReg := none, left := max 1 s.left, loadable := false }

/-- Store a word's bytes at `PC` and `PC + 1`, high byte first (R44, R60). -/
def State.placeWord (w : Word) (s : State) : State :=
  (s.memWrite s.pc (w.extractLsb' 8 8)).memWrite (s.pc + 1) (w.extractLsb' 0 8)

/-! ## The host's read ports -/

/-- Display read port `IsLit(cx, cy)` (R231). -/
def State.isLit (s : State) (cx cy : Nat) : Bool := s.fb.isLit cx cy

/-- Sound output: `SOUND_ACTIVE = (ST ≠ 0)` (R232). -/
def State.soundActive (s : State) : Bool := s.st != 0

/-- Fault read port: none, or code, word and address (R233, R211). -/
def State.faultPort (s : State) : Option (Nat × Word × Word) :=
  s.fault.map (fun r => (r.cause.code, r.word, r.addr))

end Sys2Proof.Machine
end

