-- ==== Sys2Proof/Machine/Step.lean ====
section
/-! DEFINITION. The machine's step, and where it fetches its next instruction. -/

namespace Sys2Proof.Machine

/-- One step of the machine: the next instruction of the tick in progress, else the host's next transaction. -/
def step (s : State) : Host.Outcome State Fault Refusal := driverStep s

/-- The state with the word `w` of `nbits` bits placed where `step` fetches next, and the next move made a fetch if it is not one
(assumption 6). -/
def State.withFetchWord (s : State) (nbits w : Nat) : State :=
  (s.placeWord (BitVec.ofNat 16 (w % 2 ^ nbits))).makeReady

end Sys2Proof.Machine
end

