-- ==== Sys2Proof/Safety.lean ====
section
/-! DEFINITION. The terms claims use: the invariant of the machine, a finished program, and what an instruction leaves alone. -/

namespace Sys2Proof.Machine

/-! ## The invariant -/

/-- What a record in the fatal latch says of the state it was raised in (spec/60_exceptions.md R211, R212): `PC` is the recorded
address plus 2, and the cause is true of the recorded word and the call stack. -/
def FatalRecord.Truthful (r : FatalRecord) (s : State) : Prop :=
  s.pc = r.addr + 2 ∧
  match r.cause with
  | .decodeError => ∃ e, decodeWord r.word = .error e
  | .stackUnderflow => r.word = 0x00EE ∧ s.stack = []
  | .stackOverflow => (∃ nnn, r.word = encode (.call nnn)) ∧ s.params.stackDepth = some s.stack.length

/-- What every step keeps. -/
structure State.Inv (s : State) : Prop where
  /-- memory is in canonical form -/
  memWf : s.mem.wf
  /-- `PAUSED = 1` if and only if `WAITREG` is not none (spec/10_state.md R30) -/
  waitPaired : s.paused = s.waitReg.isSome
  /-- the call stack is no deeper than a finite `STACK_DEPTH` (R16) -/
  stackFits : ∀ n, s.params.stackDepth = some n → s.stack.length ≤ n
  /-- the latch records what happened (R212) -/
  faultTruthful : ∀ r, s.fault = some r → r.Truthful s
  /-- a tick in progress has fewer than `IPF` steps left, and the CORE is running in it (R224, R225) -/
  leftBound : 0 < s.left → s.left < s.params.ipf ∧ s.running = true
  /-- a `Load` can only come before anything has run (R252) -/
  loadFresh : s.loadable = true → s.left = 0 ∧ s.running = true ∧ s.stack = []

/-- No fatal condition is recorded: "a claim about a program takes 'no fault recorded' as what it proves or assumes" (R212). -/
abbrev State.Safe (s : State) : Prop := s.fault = none

/-- A finished program: `PC` is the address of a `JP` to itself, running, no fault (spec/70_reset_and_hazards.md R266). -/
def State.Finished (s : State) : Prop :=
  s.running = true ∧ ∃ nnn, decodeWord s.fetch = .ok (.jp nnn) ∧ s.pc = zext16 nnn

/-! ## Frames -/

/-- Every memory byte reads the same. -/
def SameMemory (s t : State) : Prop := ∀ a : Word, t.memRead a = s.memRead a

/-- Every general register outside `W` reads the same. -/
def SameRegsBut (W : List RegIx) (s t : State) : Prop := ∀ r : RegIx, r ∉ W → t.reg r = s.reg r

/-- Only general registers of `W` may differ: memory reads the same and every other field is equal. -/
def OnlyRegs (W : List RegIx) (s t : State) : Prop :=
  SameRegsBut W s t ∧ SameMemory s t ∧ t = { s with v := t.v }

/-- Only `PC` may differ. -/
def OnlyPc (s t : State) : Prop :=
  SameRegsBut [] s t ∧ SameMemory s t ∧ t = { s with pc := t.pc }

/-- Only `I` may differ. -/
def OnlyIndex (s t : State) : Prop :=
  SameRegsBut [] s t ∧ SameMemory s t ∧ t = { s with i := t.i }

/-- Only memory may differ, and outside the addresses `A` every byte reads the same. -/
def OnlyMem (A : List Nat) (s t : State) : Prop :=
  SameRegsBut [] s t ∧ (∀ a : Word, effAddr a ∉ A → t.memRead a = s.memRead a) ∧ t = { s with mem := t.mem }

/-- Some 1 bit of the `n`-row sprite at `base`, drawn at column `x0` and row `y0`, falls on the pixel of column `c` and row `r`: bit
`7 − j` of row `k` falls on `((x0 + j) mod 64, (y0 + k) mod 32)` (spec/43_display.md R173, R174). -/
def SpriteCovers (s : State) (base : Word) (x0 y0 n c r : Nat) : Prop :=
  ∃ k j, k < n ∧ j < 8 ∧ (s.memRead (offsetAddr base k)).getLsbD (7 - j) = true ∧ (x0 + j) % 64 = c ∧ (y0 + k) % 32 = r

/-- Some 1 bit of the sprite falls on a lit pixel (R174: a collision). -/
def SpriteCollides (s : State) (base : Word) (x0 y0 n : Nat) : Prop :=
  ∃ c r, c < 64 ∧ r < 32 ∧ SpriteCovers s base x0 y0 n c r ∧ s.fb.isLit c r = true

/-- What a flag-writing ALU instruction with destination `x`, result `res` and flag `flag` leaves (spec/41_load_alu_random.md R121):
for `x ≠ 0xF` the result in `V[x]` and the flag in `VF`; for `x = 0xF` the one of the two that `VF_WRITE_ORDER` writes last. -/
def WritesBoth (x : RegIx) (res flag : Nat) (s t : State) : Prop :=
  OnlyRegs [x, flagReg] s t ∧
  (x ≠ flagReg → (t.reg x).toNat = res ∧ (t.reg flagReg).toNat = flag) ∧
  (x = flagReg → s.params.vfWriteOrder = .flagLast → (t.reg flagReg).toNat = flag) ∧
  (x = flagReg → s.params.vfWriteOrder = .resultLast → (t.reg flagReg).toNat = res)

end Sys2Proof.Machine
end

