-- ==== Sys2Proof/Certificates/Slice0/Obligations.lean ====
section
/-! DEFINITION. The statements of this model, for the provers. A meaning is stated on the state it runs in: its `PC` already holds
`a + 2`, where `a` is the instruction's address (spec/30_encoding.md R70, spec/40_control_transfer.md R100). The "Encoding" line of
an instruction's rule rests on the spec's decision D1 (the opcode numbers) and is stated apart, in `DecodeIsTheOpcodeTable`. -/

open Sys2Proof Sys2Proof.Machine

/-! ## Encoding -/

/-- Decoding the word of a well-formed instruction gives the instruction back, with every operand, alone and at the head of any
byte sequence. The numbering is R66's, the spec's decisions D1 and D2. -/
def Obligations.DecodeOfEncodeIsTheInstruction : Prop :=
  ∀ i : Instr, i.WellFormed →
    decodeWord (encode i) = .ok i ∧
    ∀ rest : List Byte,
      decodeBytes ((encode i).extractLsb' 8 8 :: (encode i).extractLsb' 0 8 :: rest) = .ok (i, rest)

/-- A word that decodes is the word of the well-formed instruction it decodes to: no two words are one instruction. The numbering is
R66's, the spec's decisions D1 and D2 (assumption 7). -/
def Obligations.EncodeOfDecodeIsTheWord : Prop :=
  ∀ (w : Word) (i : Instr), decodeWord w = .ok i → i.WellFormed ∧ encode i = w

/-- The decoder is the table of R66 (opcode numbers: the spec's decision D1): 34 rows, no word matches two of them, a word decodes to
an instruction of a row exactly when it matches that row. -/
def Obligations.DecodeIsTheOpcodeTable : Prop :=
  opcodeTable.length = 34 ∧
  opcodeTable.Pairwise (fun r r' => ∀ w : Word, ¬ (r.Matches w ∧ r'.Matches w)) ∧
  (∀ (w : Word) (i : Instr), decodeWord w = .ok i → i.row ∈ opcodeTable ∧ i.row.Matches w) ∧
  (∀ r ∈ opcodeTable, ∀ w : Word, r.Matches w → ∃ i, decodeWord w = .ok i ∧ i.row = r)

/-- The illegal words are those of R67's table (spec's decisions D1, D15, D16), the four nibbles of the word written apart. -/
def Obligations.IllegalWordsAreTheSixPatterns : Prop :=
  ∀ op x y n : Nibble,
    (∃ e, decodeWord (op ++ x ++ y ++ n) = .error e) ↔
      (op = 0x0 ∧ ¬ (x = 0x0 ∧ y = 0xE ∧ (n = 0x0 ∨ n = 0xE))) ∨
      (op = 0x5 ∧ n ≠ 0x0) ∨
      (op = 0x8 ∧ (n = 0x8 ∨ n = 0x9 ∨ n = 0xA ∨ n = 0xB ∨ n = 0xC ∨ n = 0xD ∨ n = 0xF)) ∨
      (op = 0x9 ∧ n ≠ 0x0) ∨
      (op = 0xE ∧ ¬ (y = 0x9 ∧ n = 0xE) ∧ ¬ (y = 0xA ∧ n = 0x1)) ∨
      (op = 0xF ∧ (y, n) ∉ ([(0x0, 0x7), (0x0, 0xA), (0x1, 0x5), (0x1, 0x8), (0x1, 0xE), (0x2, 0x9), (0x3, 0x3), (0x5, 0x5),
        (0x6, 0x5)] : List (Nibble × Nibble)))

/-- Words of spec/95_test_vectors.md 2.1 decode as its table says. Every number but `1nnn` is the spec's decision D1 and the place of `n` its
decision D2, both from general knowledge (assumption 7); that `512F`, `9121` and `0000` are illegal is its decisions D15 and D16
(assumption 10). -/
def Obligations.SpecWordsDecode : Prop :=
  decodeWord 0x00E0 = .ok .cls ∧ decodeWord 0x00EE = .ok .ret ∧ decodeWord 0x1FFF = .ok (.jp 0xFFF) ∧
  decodeWord 0x5120 = .ok (.seReg 1 2) ∧ decodeWord 0x8127 = .ok (.subnReg 1 2) ∧ decodeWord 0x812E = .ok (.shl 1 2) ∧
  decodeWord 0x9120 = .ok (.sneReg 1 2) ∧ decodeWord 0xD000 = .ok (.drw 0 0 0) ∧ decodeWord 0xE19E = .ok (.skp 1) ∧
  decodeWord 0xF10A = .ok (.ldVxK 1) ∧ decodeWord 0xF133 = .ok (.ldB 1) ∧ decodeWord 0xF165 = .ok (.loadRegs 1) ∧
  decodeWord 0x0000 = .error .family0 ∧ decodeWord 0x512F = .error .family5 ∧ decodeWord 0x8128 = .error .family8 ∧
  decodeWord 0x9121 = .error .family9 ∧ decodeWord 0xE1A0 = .error .familyE ∧ decodeWord 0xF1FF = .error .familyF

/-! ## Control transfer -/

/-- R102: `JP nnn` puts the 12-bit address in `PC`, zero-extended, and changes nothing else; the word `1nnn` is this instruction. -/
def Obligations.JumpSetsPc : Prop :=
  ∀ (nnn : Addr12) (s : State),
    decodeWord (0x1#4 ++ nnn) = .ok (.jp nnn) ∧
    ∃ t, exec (.jp nnn) s = .next t ∧ t.pc.toNat = nnn.toNat ∧ OnlyPc s t

/-- R101, R214: `RET` pops the top of the call stack into `PC`, all 16 bits; on an empty stack the latch records the underflow with the
word `00EE` and the instruction's own address, and nothing else changes. That the underflow is recorded in a latch, with the word and
the instruction's own address, and that `PC` stays `a + 2` is the spec's decision D18 (assumption 11). -/
def Obligations.ReturnPopsOrIsFatal : Prop :=
  (∀ (s : State) (top : Word) (rest : List Word), s.stack = top :: rest →
    ∃ t, exec .ret s = .next t ∧ t.pc = top ∧ t.stack = rest ∧
      SameRegsBut [] s t ∧ SameMemory s t ∧ t = { s with pc := t.pc, stack := t.stack }) ∧
  (∀ s : State, s.stack = [] →
    ∃ t, exec .ret s = .next t ∧ t.fault = some ⟨.stackUnderflow, 0x00EE, s.pc - 2⟩ ∧
      SameRegsBut [] s t ∧ SameMemory s t ∧ t = { s with fault := t.fault })

/-- R103: `CALL nnn` pushes the address after the call and jumps. The overflow of a finite stack, recorded before anything is pushed, is
the spec's decision D17. That the latch records the word and the instruction's own address is its decision D18 (assumptions 11, 12). -/
def Obligations.CallPushesOrIsFatal : Prop :=
  (∀ (nnn : Addr12) (s : State), (∀ n, s.params.stackDepth = some n → s.stack.length < n) →
    ∃ t, exec (.call nnn) s = .next t ∧ t.pc.toNat = nnn.toNat ∧ t.stack = s.pc :: s.stack ∧
      SameRegsBut [] s t ∧ SameMemory s t ∧ t = { s with pc := t.pc, stack := t.stack }) ∧
  (∀ (nnn : Addr12) (s : State), s.params.stackDepth = some s.stack.length →
    ∃ t, exec (.call nnn) s = .next t ∧ t.fault = some ⟨.stackOverflow, 0x2#4 ++ nnn, s.pc - 2⟩ ∧
      SameRegsBut [] s t ∧ SameMemory s t ∧ t = { s with fault := t.fault })

/-- R104, R105: the immediate skips add a further 2 to `PC` when the register is, or is not, the immediate. -/
def Obligations.ImmediateSkips : Prop :=
  ∀ (x : RegIx) (nn : Byte) (s : State),
    (∃ t, exec (.seImm x nn) s = .next t ∧ OnlyPc s t ∧
      (s.reg x = nn → t.pc = s.pc + 2) ∧ (s.reg x ≠ nn → t.pc = s.pc)) ∧
    (∃ t, exec (.sneImm x nn) s = .next t ∧ OnlyPc s t ∧
      (s.reg x ≠ nn → t.pc = s.pc + 2) ∧ (s.reg x = nn → t.pc = s.pc))

/-- R106, R107: the register skips compare two registers. That `5xyn` and `9xyn` with `n ≠ 0` are no such instruction is the spec's
decision D15, in `IllegalWordsAreTheSixPatterns`. -/
def Obligations.RegisterSkips : Prop :=
  ∀ (x y : RegIx) (s : State),
    (∃ t, exec (.seReg x y) s = .next t ∧ OnlyPc s t ∧
      (s.reg x = s.reg y → t.pc = s.pc + 2) ∧ (s.reg x ≠ s.reg y → t.pc = s.pc)) ∧
    (∃ t, exec (.sneReg x y) s = .next t ∧ OnlyPc s t ∧
      (s.reg x ≠ s.reg y → t.pc = s.pc + 2) ∧ (s.reg x = s.reg y → t.pc = s.pc))

/-- R108: `JP V0, nnn` puts the sum in `PC`; it never wraps. -/
def Obligations.JumpWithOffset : Prop :=
  ∀ (nnn : Addr12) (s : State),
    ∃ t, exec (.jpV0 nnn) s = .next t ∧ t.pc.toNat = nnn.toNat + (s.reg 0).toNat ∧ OnlyPc s t

/-! ## Load, arithmetic, logic, shift, random -/

/-- R122, R123, R124: the two loads and the add immediate write their destination only; the add wraps and writes no flag, as the
document says of it. That the two loads write no flag is the spec's decision D28 (assumption 13). -/
def Obligations.LoadsAndAddImmediate : Prop :=
  ∀ (x y : RegIx) (nn : Byte) (s : State),
    (∃ t, exec (.ldImm x nn) s = .next t ∧ t.reg x = nn ∧ OnlyRegs [x] s t) ∧
    (∃ t, exec (.addImm x nn) s = .next t ∧ (t.reg x).toNat = ((s.reg x).toNat + nn.toNat) % 256 ∧ OnlyRegs [x] s t) ∧
    (∃ t, exec (.ldReg x y) s = .next t ∧ t.reg x = s.reg y ∧ OnlyRegs [x] s t)

/-- R125, R131, R132: the logic operations, bit by bit; that they leave `VF` alone is the spec's decision D28. -/
def Obligations.LogicOperations : Prop :=
  ∀ (x y : RegIx) (s : State),
    (∃ t, exec (.orReg x y) s = .next t ∧ OnlyRegs [x] s t ∧
      ∀ k < 8, (t.reg x).getLsbD k = ((s.reg x).getLsbD k || (s.reg y).getLsbD k)) ∧
    (∃ t, exec (.andReg x y) s = .next t ∧ OnlyRegs [x] s t ∧
      ∀ k < 8, (t.reg x).getLsbD k = ((s.reg x).getLsbD k && (s.reg y).getLsbD k)) ∧
    (∃ t, exec (.xorReg x y) s = .next t ∧ OnlyRegs [x] s t ∧
      ∀ k < 8, (t.reg x).getLsbD k = Bool.xor ((s.reg x).getLsbD k) ((s.reg y).getLsbD k))

/-- R121: of `WriteBoth`, from a result and a flag computed before, for both values of `VF_WRITE_ORDER`. -/
def Obligations.WriteBothFollowsTheOrder : Prop :=
  ∀ (x : RegIx) (r f : Byte) (s : State), WritesBoth x r.toNat f.toNat s (writeBoth x r f s)

/-- R126: `ADD Vx, Vy`, for every value of `ADD_FLAG_RULE` and `VF_WRITE_ORDER` (the default, decision D26, plays no part). -/
def Obligations.AddWithFlag : Prop :=
  ∀ (x y : RegIx) (s : State),
    ∃ t, exec (.addReg x y) s = .next t ∧
      WritesBoth x (((s.reg x).toNat + (s.reg y).toNat) % 256)
        (match s.params.addFlagRule with
          | .ltFF => if (s.reg x).toNat + (s.reg y).toNat < 0xFF then 1 else 0
          | .geFF => if (s.reg x).toNat + (s.reg y).toNat ≥ 0xFF then 1 else 0
          | .gtFF => if (s.reg x).toNat + (s.reg y).toNat > 0xFF then 1 else 0) s t

/-- R127, R129: the two subtractions wrap, and the flag is strict; the two writes are R121's, in either order. -/
def Obligations.SubtractionsWithFlag : Prop :=
  ∀ (x y : RegIx) (s : State),
    (∃ t, exec (.subReg x y) s = .next t ∧
      WritesBoth x ((256 + (s.reg x).toNat - (s.reg y).toNat) % 256)
        (if (s.reg x).toNat > (s.reg y).toNat then 1 else 0) s t) ∧
    (∃ t, exec (.subnReg x y) s = .next t ∧
      WritesBoth x ((256 + (s.reg y).toNat - (s.reg x).toNat) % 256)
        (if (s.reg y).toNat > (s.reg x).toNat then 1 else 0) s t)

/-- R128, and R121 for `x = F`: `SHR Vx` halves `V[x]` in place and the flag is the old bit 0. That `V[y]` is neither read nor written
is the spec's decision D27 (assumption 13). -/
def Obligations.ShiftRight : Prop :=
  ∀ (x y : RegIx) (s : State),
    ∃ t, exec (.shr x y) s = .next t ∧ WritesBoth x ((s.reg x).toNat / 2) ((s.reg x).toNat % 2) s t

/-- R130: `SHL Vx`, for both values of `SHL_FLAG_RULE`; the result expression is the spec's decision D27. -/
def Obligations.ShiftLeft : Prop :=
  ∀ (x y : RegIx) (s : State),
    ∃ t, exec (.shl x y) s = .next t ∧
      WritesBoth x (2 * (s.reg x).toNat % 256)
        (match s.params.shlFlagRule with
          | .rawMask => 0x80 * ((s.reg x).toNat / 0x80)
          | .bit => (s.reg x).toNat / 0x80) s t

/-- R133: `RND Vx, nn` masks the draw, whatever it is, and consumes it. The draw is the model's free value at its counter (assumption 2;
no law of it: the spec's decision D20). -/
def Obligations.RandomMaskedByImmediate : Prop :=
  ∀ (x : RegIx) (nn : Byte) (s : State),
    ∃ t, exec (.rnd x nn) s = .next t ∧ t.reg x = (Config.randomByte s.draws &&& nn) ∧ t.reg x &&& ~~~nn = 0 ∧
      t.draws = s.draws + 1 ∧ SameRegsBut [x] s t ∧ SameMemory s t ∧ t = { s with v := t.v, draws := t.draws }

/-! ## Index register and memory -/

/-- R151, R152: `LD I, nnn` and `ADD I, Vx` (16-bit wraparound). That they write no flag is the spec's decision D28 (assumption 13). -/
def Obligations.LoadAndAddIndex : Prop :=
  (∀ (nnn : Addr12) (s : State), ∃ t, exec (.ldI nnn) s = .next t ∧ t.i.toNat = nnn.toNat ∧ OnlyIndex s t) ∧
  (∀ (x : RegIx) (s : State),
    ∃ t, exec (.addI x) s = .next t ∧ t.i.toNat = (s.i.toNat + (s.reg x).toNat) % 65536 ∧ OnlyIndex s t)

/-- R153: `LD F, Vx` multiplies the whole byte by 5; that it is not masked is the spec's decision D33. -/
def Obligations.GlyphAddress : Prop :=
  ∀ (x : RegIx) (s : State), ∃ t, exec (.ldF x) s = .next t ∧ t.i.toNat = (s.reg x).toNat * 5 ∧ OnlyIndex s t

/-- R42, R150: the byte at offset `k` from a base is the byte `(base + k) mod 4096` of the array: the masking is the spec's decision
D9. -/
def Obligations.OffsetAddressesWrap : Prop :=
  ∀ (base : Word) (k : Nat), effAddr (offsetAddr base k) = (base.toNat + k) % 4096

/-- R154: `LD B, Vx` stores the hundreds, tens and ones digits at `I`, `I + 1`, `I + 2`, and no other byte changes. That each address is
reduced mod 4096 is the spec's decision D9 (assumption 9), that `I` is unchanged its decision D14 (assumption 15). -/
def Obligations.StoresDecimalDigits : Prop :=
  ∀ (x : RegIx) (s : State), s.mem.wf →
    ∃ t, exec (.ldB x) s = .next t ∧
      (∀ a : Word, effAddr a = effAddr (offsetAddr s.i 0) → (t.memRead a).toNat = (s.reg x).toNat / 100) ∧
      (∀ a : Word, effAddr a = effAddr (offsetAddr s.i 1) → (t.memRead a).toNat = (s.reg x).toNat / 10 % 10) ∧
      (∀ a : Word, effAddr a = effAddr (offsetAddr s.i 2) → (t.memRead a).toNat = (s.reg x).toNat % 10) ∧
      OnlyMem [effAddr (offsetAddr s.i 0), effAddr (offsetAddr s.i 1), effAddr (offsetAddr s.i 2)] s t

/-- R155: `LD [I], Vx` stores registers 0 to `x − 1`, not `x`, from `I` on, and no other byte changes. That `I` is unchanged is the
spec's decision D14. That each address is reduced mod 4096 is its decision D9 (assumptions 9, 15). -/
def Obligations.StoresRegistersBelowX : Prop :=
  ∀ (x : RegIx) (s : State), s.mem.wf →
    ∃ t, exec (.storeRegs x) s = .next t ∧
      (∀ r : RegIx, r.val < x.val → ∀ a : Word, effAddr a = effAddr (offsetAddr s.i r.val) → t.memRead a = s.reg r) ∧
      OnlyMem ((List.range x.val).map (fun k => effAddr (offsetAddr s.i k))) s t

/-- R156: `LD Vx, [I]` loads registers 0 to `x − 1`, not `x`, from `I` on, and no other register changes. That `I` is unchanged is the
spec's decision D14. That each address is reduced mod 4096 is its decision D9 (assumptions 9, 15). -/
def Obligations.LoadsRegistersBelowX : Prop :=
  ∀ (x : RegIx) (s : State),
    ∃ t, exec (.loadRegs x) s = .next t ∧
      (∀ r : RegIx, r.val < x.val → t.reg r = s.memRead (offsetAddr s.i r.val)) ∧
      (∀ r : RegIx, x.val ≤ r.val → t.reg r = s.reg r) ∧
      SameMemory s t ∧ t = { s with v := t.v }

/-- R43, R45: a memory write sets the byte at the reduced address and changes nothing else; a read gives the byte of the array
at the reduced address. The reduction mod 4096 is the spec's decision D9, and that every byte can be written, the font too, its
decision D32 (assumption 9). The premise is the canonical form of the model's memory, kept by every step (`StepKeepsInvariant`). -/
def Obligations.MemoryReadAfterWrite : Prop :=
  ∀ (s : State) (addr : Word) (b : Byte), s.mem.wf →
    (s.memWrite addr b).mem.wf ∧
    (∀ a a' : Word, a.toNat % 4096 = a'.toNat % 4096 → s.memRead a = s.memRead a') ∧
    (∀ a : Word, a.toNat % 4096 = addr.toNat % 4096 → (s.memWrite addr b).memRead a = b) ∧
    (∀ a : Word, a.toNat % 4096 ≠ addr.toNat % 4096 → (s.memWrite addr b).memRead a = s.memRead a) ∧
    s.memWrite addr b = { s with mem := (s.memWrite addr b).mem }

/-- R44, R54: the fetch is big-endian and wraps byte by byte (spec's decisions D9, D10); a store to the two bytes at `PC` is what the
next fetch reads. -/
def Obligations.FetchIsBigEndianAndCoherent : Prop :=
  ∀ s : State,
    s.fetch.toNat = (s.mem.read (s.pc.toNat % 4096)).toNat * 256 + (s.mem.read ((s.pc.toNat + 1) % 4096)).toNat ∧
    (s.mem.wf → ∀ hi lo : Byte, (((s.memWrite s.pc hi).memWrite (s.pc + 1) lo).fetch).toNat = hi.toNat * 256 + lo.toNat)

/-! ## Display -/

/-- R170, R171: `Toggle` inverts exactly one pixel, named by wrapped coordinates, and returns its new value. -/
def Obligations.ToggleInvertsOnePixel : Prop :=
  ∀ (d : Display) (cx cy : Nat),
    (d.toggle cx cy).2 = !d.isLit cx cy ∧
    (∀ px py, px % 64 = cx % 64 → py % 32 = cy % 32 →
      d.isLit px py = d.isLit cx cy ∧ (d.toggle cx cy).1.isLit px py = (d.toggle cx cy).2) ∧
    (∀ px py, ¬ (px % 64 = cx % 64 ∧ py % 32 = cy % 32) → (d.toggle cx cy).1.isLit px py = d.isLit px py)

/-- R176: toggling a coordinate twice restores the display. -/
def Obligations.ToggleTwiceRestores : Prop :=
  ∀ (d : Display) (cx cy : Nat), ((d.toggle cx cy).1.toggle cx cy).1 = d

/-- R175, R172: `CLS` turns every pixel off and changes nothing else. -/
def Obligations.ClearScreen : Prop :=
  ∀ s : State, ∃ t, exec .cls s = .next t ∧ (∀ cx cy, t.fb.isLit cx cy = false) ∧
    SameRegsBut [] s t ∧ SameMemory s t ∧ t = { s with fb := t.fb }

/-- R174: `DRW Vx, Vy, n` inverts exactly the pixels its sprite's 1 bits cover, at the wrapped coordinates the registers held before,
and `VF` is 1 if one of them was lit, else 0. That the coordinates are latched first is the spec's decision D13; the bit order of a row
is D4. That sprite addresses are reduced mod 4096 is D9, and that `I` is unchanged D14 (assumptions 8, 9, 14, 15). -/
def Obligations.DrawInvertsCoveredPixels : Prop :=
  ∀ (x y : RegIx) (n : Nat) (s : State), n < 16 →
    ∃ t, exec (.drw x y n) s = .next t ∧
      (∀ c r, c < 64 → r < 32 →
        (SpriteCovers s s.i (s.reg x).toNat (s.reg y).toNat n c r → t.fb.isLit c r = !s.fb.isLit c r) ∧
        (¬ SpriteCovers s s.i (s.reg x).toNat (s.reg y).toNat n c r → t.fb.isLit c r = s.fb.isLit c r)) ∧
      (SpriteCollides s s.i (s.reg x).toNat (s.reg y).toNat n → t.reg flagReg = 1) ∧
      (¬ SpriteCollides s s.i (s.reg x).toNat (s.reg y).toNat n → t.reg flagReg = 0) ∧
      SameRegsBut [flagReg] s t ∧ SameMemory s t ∧ t = { s with v := t.v, fb := t.fb }

/-- R174: drawing the same sprite twice at the same place restores the display, and the second draw's `VF` is 1 exactly when the first
lit a pixel. That the first draw leaves `I` as it was is the spec's decision D14 (assumption 15). -/
def Obligations.DrawTwiceRestores : Prop :=
  ∀ (x y : RegIx) (n : Nat) (s : State), n < 16 → x ≠ flagReg → y ≠ flagReg →
    ∃ t u, exec (.drw x y n) s = .next t ∧ exec (.drw x y n) t = .next u ∧ u.fb = s.fb ∧
      (u.reg flagReg = 1 ↔ ∃ c r, c < 64 ∧ r < 32 ∧ s.fb.isLit c r = false ∧ t.fb.isLit c r = true)

/-! ## Keys and timers -/

/-- R190, R191, R193: the key skips read the key whose number the whole register holds; a number of 16 or more is no key. -/
def Obligations.KeySkips : Prop :=
  ∀ (x : RegIx) (s : State),
    (∃ t, exec (.skp x) s = .next t ∧ OnlyPc s t ∧
      (∀ k : Fin 16, (s.reg x).toNat = k.val → t.pc = if s.keys[k] then s.pc + 2 else s.pc) ∧
      (16 ≤ (s.reg x).toNat → t.pc = s.pc)) ∧
    (∃ t, exec (.sknp x) s = .next t ∧ OnlyPc s t ∧
      (∀ k : Fin 16, (s.reg x).toNat = k.val → t.pc = if s.keys[k] then s.pc else s.pc + 2) ∧
      (16 ≤ (s.reg x).toNat → t.pc = s.pc + 2))

/-- R194: `LD Vx, K` pauses the CORE and registers `x`; that is all it does. -/
def Obligations.AwaitKeyPauses : Prop :=
  ∀ (x : RegIx) (s : State),
    ∃ t, exec (.ldVxK x) s = .next t ∧ t.paused = true ∧ t.waitReg = some x ∧
      SameRegsBut [] s t ∧ SameMemory s t ∧ t = { s with paused := t.paused, waitReg := t.waitReg }

/-- R192, R195, R196: the three timer moves. -/
def Obligations.TimerMoves : Prop :=
  ∀ (x : RegIx) (s : State),
    (∃ t, exec (.ldVxDT x) s = .next t ∧ t.reg x = s.dt ∧ OnlyRegs [x] s t) ∧
    (∃ t, exec (.ldDTVx x) s = .next t ∧ t.dt = s.reg x ∧ SameRegsBut [] s t ∧ SameMemory s t ∧ t = { s with dt := t.dt }) ∧
    (∃ t, exec (.ldSTVx x) s = .next t ∧ t.st = s.reg x ∧ SameRegsBut [] s t ∧ SameMemory s t ∧ t = { s with st := t.st })

/-! ## Rules over all instructions -/

/-- R70, R71, R234: every instruction completes from every state, and does what it does whatever the host's script, the position in the
tick and the time for `Load` are. The script, the position in the tick and the time for `Load` are the model's own fields (assumptions
4, 5). -/
def Obligations.EveryInstructionCompletes : Prop :=
  ∀ (i : Instr) (s : State), ∃ t, exec i s = .next t ∧
    ∀ (h : List HostEvent) (l : Nat) (b : Bool),
      exec i { s with host := h, left := l, loadable := b } = .next { t with host := h, left := l, loadable := b }

/-- R15: how each instruction leaves `PC` (the skips may have added 2, the transfers replace it, every other keeps `a + 2`). That `PC`
stays `a + 2` in a fatal is the spec's decision D18, the full stack its decision D17 (assumptions 11, 12). -/
def Obligations.PcAfterEachInstruction : Prop :=
  ∀ (i : Instr) (s t : State), exec i s = .next t →
    match i with
    | .jp nnn => t.pc = zext16 nnn
    | .call nnn => t.pc = if s.stackFull then s.pc else zext16 nnn
    | .ret => t.pc = s.stack.headD s.pc
    | .jpV0 nnn => t.pc = zext16 nnn + zext16 (s.reg 0)
    | .seImm _ _ | .sneImm _ _ | .seReg _ _ | .sneReg _ _ | .skp _ | .sknp _ => t.pc = s.pc ∨ t.pc = s.pc + 2
    | _ => t.pc = s.pc

/-- R12: the instructions that write `VF` although it is not their destination are the six of its table (that no other does is the
spec's decision D28). -/
def Obligations.FlagSideEffects : Prop :=
  ∀ (i : Instr) (s t : State), exec i s = .next t → t.reg flagReg ≠ s.reg flagReg →
    (∃ x y, i = .addReg x y ∨ i = .subReg x y ∨ i = .shr x y ∨ i = .subnReg x y ∨ i = .shl x y) ∨
    (∃ x y n, i = .drw x y n) ∨
    (∃ nn, i = .ldImm flagReg nn ∨ i = .addImm flagReg nn ∨ i = .rnd flagReg nn) ∨
    (∃ y, i = .ldReg flagReg y ∨ i = .orReg flagReg y ∨ i = .andReg flagReg y ∨ i = .xorReg flagReg y) ∨
    i = .ldVxDT flagReg

/-- R40, R56, R45: an instruction that changes what some address reads as is `LD B, Vx` or `LD [I], Vx`; every other leaves memory as it
was. -/
def Obligations.OnlyTheStoresWriteMemory : Prop :=
  ∀ (i : Instr) (s t : State), exec i s = .next t → (∀ x, i ≠ .ldB x) → (∀ x, i ≠ .storeRegs x) → t.mem = s.mem

/-- R16, R22, R13: only `CALL` and `RET` change the call stack, only `CLS` and `DRW` the display, only `LD I`, `ADD I` and `LD F` the index
register. That `DRW`, `LD B` and the block copies leave `I` alone is the spec's decision D14 (assumption 15). -/
def Obligations.StackDisplayIndexWriters : Prop :=
  ∀ (i : Instr) (s t : State), exec i s = .next t →
    (t.stack ≠ s.stack → i = .ret ∨ ∃ nnn, i = .call nnn) ∧
    (t.fb ≠ s.fb → i = .cls ∨ ∃ x y n, i = .drw x y n) ∧
    (t.i ≠ s.i → (∃ nnn, i = .ldI nnn) ∨ ∃ x, i = .addI x ∨ i = .ldF x)

/-- R17, R18, R20, R23, R24: no instruction changes the keys or the model arguments; only `LD DT, Vx` and `LD ST, Vx` write the timers;
only `LD Vx, K` writes `PAUSED` and `WAITREG`; only `RET` and `CALL` set the latch. That there is a latch is the spec's decision D18
(assumption 11); that the arguments stand in the state is the model's form (assumption 3). -/
def Obligations.TimerKeyWaitFaultWriters : Prop :=
  ∀ (i : Instr) (s t : State), exec i s = .next t →
    t.keys = s.keys ∧ t.params = s.params ∧
    (t.dt ≠ s.dt → ∃ x, i = .ldDTVx x) ∧
    (t.st ≠ s.st → ∃ x, i = .ldSTVx x) ∧
    ((t.paused ≠ s.paused ∨ t.waitReg ≠ s.waitReg) → ∃ x, i = .ldVxK x) ∧
    (t.fault ≠ s.fault → i = .ret ∨ ∃ nnn, i = .call nnn)

/-- R18, R23, R28: no instruction reads the sound timer, and only the key skips read the keys: a state that differs there runs every other
instruction to the same state but for the difference. -/
def Obligations.SoundTimerAndKeysUnread : Prop :=
  ∀ (i : Instr) (s t : State), exec i s = .next t →
    (∀ b : Byte, exec i { s with st := b } = .next (match i with | .ldSTVx _ => t | _ => { t with st := b })) ∧
    (∀ k : Vector Bool Config.nKeys, (∀ x, i ≠ .skp x) → (∀ x, i ≠ .sknp x) →
      exec i { s with keys := k } = .next { t with keys := k })

/-- R21, R24, R26: no instruction reads `PAUSED`, `WAITREG` or `FAULT`. That there is a latch is the spec's decision D18 (assumption
11). -/
def Obligations.WaitAndFaultUnread : Prop :=
  ∀ (i : Instr) (s t : State), exec i s = .next t →
    (∀ (p : Bool) (q : Option RegIx),
      exec i { s with paused := p, waitReg := q } =
        .next (match i with | .ldVxK _ => t | _ => { t with paused := p, waitReg := q })) ∧
    (s.fault = none → ∀ f : Option FatalRecord, exec i { s with fault := f } = .next { t with fault := t.fault.or f })

/-! ## The step -/

/-- R70: when the bytes at `PC` decode, a step is the instruction on the state with `PC` advanced by 2, and then the close of the step in
its tick (`TickClosesAfterAnInstruction`). The driver around it is the model's form (assumption 4). -/
def Obligations.StepRunsTheDecodedInstruction : Prop :=
  ∀ (s : State) (i : Instr), s.readyToFetch = true → decodeWord s.fetch = .ok i →
    step s = andThen (exec i (s.fetchState.setPc (s.pc + 2))) (fun t => .next (closeStep s.leftAfter t))

/-- R226, R225 b, d: what closes an instruction's step: a CORE that stopped running ends the tick with no countdown; a running one goes on
with the steps left, and after the last the timers lose one each, never below zero. That a fatal ends the tick without a countdown is the
spec's decision D29, with D19 (assumption 17); `closeStep` and `left` are the model's form (assumption 4). -/
def Obligations.TickClosesAfterAnInstruction : Prop :=
  ∀ (k : Nat) (s : State),
    (s.running = false → closeStep k s = { s with left := 0 }) ∧
    (s.running = true → 0 < k → closeStep k s = { s with left := k }) ∧
    (s.running = true → k = 0 → ∃ t, closeStep k s = t ∧ t.left = 0 ∧ t.dt.toNat = s.dt.toNat - 1 ∧ t.st.toNat = s.st.toNat - 1 ∧
      t = { s with left := t.left, dt := t.dt, st := t.st })

/-- The model's probe (assumption 6) does what it is for, on every state whose memory is in canonical form (kept by every step,
`StepKeepsInvariant`): the next step fetches the word placed, legal or not; the instruction a legal word decodes to runs, and an illegal
word is the fatal `DecodeError`. No byte but the two at `PC` and `PC + 1` changes, and nothing but memory where the next step is a fetch
already. -/
def Obligations.PlacedWordRunsNext : Prop :=
  ∀ (s : State) (nbits w : Nat), s.mem.wf →
    (s.withFetchWord nbits w).readyToFetch = true ∧
    (s.withFetchWord nbits w).fetch = BitVec.ofNat 16 (w % 2 ^ nbits) ∧
    (∀ i, decodeTableWord nbits w = some i →
      ∃ u, exec i ((s.withFetchWord nbits w).fetchState.setPc (s.pc + 2)) = .next u ∧
        step (s.withFetchWord nbits w) = .next (closeStep (s.withFetchWord nbits w).leftAfter u)) ∧
    (decodeTableWord nbits w = none →
      ∃ t, step (s.withFetchWord nbits w) = .next t ∧ t.pc = s.pc + 2 ∧
        t.fault = some ⟨.decodeError, BitVec.ofNat 16 (w % 2 ^ nbits), s.pc⟩) ∧
    (∀ a : Word, effAddr a ≠ effAddr s.pc → effAddr a ≠ effAddr (s.pc + 1) →
      (s.withFetchWord nbits w).memRead a = s.memRead a) ∧
    (s.readyToFetch = true → s.withFetchWord nbits w = { s with mem := (s.withFetchWord nbits w).mem })

/-- R213, R211: fetching an illegal word records `DecodeError` with the word and its address; `PC` is 2 further, the tick is over, and
nothing else of the CORE changes (latch and address recorded: the spec's decision D18). That it ends the tick without a countdown is the
spec's decision D29 (assumptions 11, 17); the step and `left` are the model's form (assumption 4). -/
def Obligations.IllegalWordIsFatal : Prop :=
  ∀ (s : State) (e : Illegal), s.readyToFetch = true → decodeWord s.fetch = .error e →
    ∃ t, step s = .next t ∧ t.fault = some ⟨.decodeError, s.fetch, s.pc⟩ ∧ t.pc = s.pc + 2 ∧ t.left = 0 ∧
      t = { s with fault := t.fault, pc := t.pc, left := t.left, host := t.host, loadable := t.loadable }

/-- R212: a fatal is precise: whatever step sets the latch, it records the word fetched and the address it was fetched from, `PC` is 2
further, and every other element of the CORE is as before the step (the record: the spec's decision D18). That it ends the tick without
a countdown is the spec's decision D29 (assumptions 11, 17); the step and `left` are the model's form (assumption 4). -/
def Obligations.FatalIsPrecise : Prop :=
  ∀ (s t : State) (r : FatalRecord), s.fault = none → step s = .next t → t.fault = some r →
    s.readyToFetch = true ∧ r.word = s.fetch ∧ r.addr = s.pc ∧
    t = { s with fault := some r, pc := s.pc + 2, left := 0, host := t.host, loadable := t.loadable }

/-- R212, R218: the fatal state is terminal: whatever ticks and key events the host sends, nothing changes but its script, and then the
machine stops with the record (spec's decision D19; the stop is the model's form, assumption 4). -/
def Obligations.FatalStateIsTerminal : Prop :=
  ∀ (s : State) (r : FatalRecord), s.left = 0 → s.fault = some r →
    (∀ e ∈ s.host, e = .tick ∨ (∃ k, e = .keyPress k) ∨ ∃ k, e = .keyRelease k) →
    core.run s.host.length s = .next { s with host := [] } ∧
    step { s with host := [] } = .fault (.halted r)

/-- R224: run one instruction a step, a tick of the host ends in the state that `Tick()`, written as one transaction, gives: for every
`IPF`, every program, and a wait or a fatal anywhere in it. That an empty script ticks is the model's form (assumption 4); that a fatal
ends the tick without a countdown is the spec's decision D29 (assumption 17). -/
def Obligations.StepsOfATickAreTheTick : Prop :=
  ∀ (s : State) (rest : List HostEvent), s.left = 0 → s.fault = none →
    (s.host = .tick :: rest ∨ (s.host = [] ∧ rest = [])) →
    ∃ k, 1 ≤ k ∧ k ≤ max 1 s.params.ipf ∧ core.run k s = tick { s with host := rest, loadable := false }

/-- R225 a, f: a tick that finds the CORE awaiting a key does nothing; with `IPF = 0` it only counts the timers down. The structure of a
tick is the spec's decision D29 (assumption 17); the script, its empty case and `loadable` are the model's form (assumptions 4, 5). -/
def Obligations.TickWithoutSteps : Prop :=
  ∀ s : State, s.left = 0 → s.tickNext = true → s.fault = none →
    (s.paused = true → step s = .next { s with host := s.host.tail, loadable := false }) ∧
    (s.paused = false → s.params.ipf = 0 →
      ∃ t, step s = .next t ∧ t.dt.toNat = s.dt.toNat - 1 ∧ t.st.toNat = s.st.toNat - 1 ∧
        t = { s with dt := t.dt, st := t.st, host := s.host.tail, loadable := false })

/-- R225 b, R194: `LD Vx, K` ends its tick at once: the CORE waits, `PC` is past the instruction, the rest of the quantum is skipped and
the timers are not decremented. The step and `left` are the model's form (assumption 4). -/
def Obligations.AwaitKeyEndsTheTick : Prop :=
  ∀ (s : State) (x : RegIx), s.readyToFetch = true → decodeWord s.fetch = .ok (.ldVxK x) →
    ∃ t, step s = .next t ∧ t.paused = true ∧ t.waitReg = some x ∧ t.pc = s.pc + 2 ∧ t.left = 0 ∧ t.dt = s.dt ∧ t.st = s.st ∧
      SameRegsBut [] s t ∧ SameMemory s t

/-- R220, R223: transactions land between ticks and only there. Between ticks the step is the script's next transaction, whole, whatever
it is and whatever the CORE is doing, and it alone is taken off the script; inside a tick the step leaves the script alone and is the same
whatever stands in it. The script, and that an empty one ticks, are the model's form (assumption 4). -/
def Obligations.NoTransactionInsideATick : Prop :=
  (∀ (s : State) (e : HostEvent) (rest : List HostEvent), s.left = 0 → s.host = e :: rest →
    step s = transact e { s with host := rest }) ∧
  (∀ s : State, s.left = 0 → s.host = [] → s.fault = none → step s = transact .tick s) ∧
  (∀ s t : State, 0 < s.left → step s = .next t →
    t.host = s.host ∧ ∀ h : List HostEvent, step { s with host := h } = .next { t with host := h })

/-! ## Host transactions -/

/-- R221, R230: a key press sets its key and, in the same transaction, completes a pending wait; an index above 15 is dropped whole; in the
fatal state nothing happens (spec's decisions D19, D23, D24). -/
def Obligations.KeyPressCompletesTheWait : Prop :=
  (∀ (s : State) (k : Fin 16), s.fault = none →
    ∃ t, transact (.keyPress k.val) s = .next t ∧ t.keys[k] = true ∧ (∀ j : Fin 16, j ≠ k → t.keys[j] = s.keys[j]) ∧
      (∀ r, s.waitReg = some r → (t.reg r).toNat = k.val ∧ t.paused = false ∧ t.waitReg = none ∧ SameRegsBut [r] s t) ∧
      (s.waitReg = none → t.paused = s.paused ∧ t.waitReg = none ∧ SameRegsBut [] s t) ∧
      SameMemory s t ∧ t = { s with keys := t.keys, v := t.v, paused := t.paused, waitReg := t.waitReg }) ∧
  (∀ (s : State) (k : Nat), s.fault ≠ none ∨ 16 ≤ k → transact (.keyPress k) s = .next s)

/-- R222, R230: a key release clears its key and never completes a wait; an index above 15 is dropped whole; in the fatal state nothing
happens (spec's decisions D19, D23; assumptions 11, 16). -/
def Obligations.KeyReleaseClearsTheKey : Prop :=
  (∀ (s : State) (k : Fin 16), s.fault = none →
    ∃ t, transact (.keyRelease k.val) s = .next t ∧ t.keys[k] = false ∧ (∀ j : Fin 16, j ≠ k → t.keys[j] = s.keys[j]) ∧
      SameRegsBut [] s t ∧ SameMemory s t ∧ t = { s with keys := t.keys }) ∧
  (∀ (s : State) (k : Nat), s.fault ≠ none ∨ 16 ≤ k → transact (.keyRelease k) s = .next s)

/-- R250, R29: what `Reset` leaves of the CORE, from any state: the font below 0x050 and zero above, `PC` 0x200, every other of the twelve
elements zero, empty or none. The values but the font's place and the keys' are the spec's decisions D5 to D8 (assumption 1), the font
bytes D3 (assumption 8). Of the model's own fields, the arguments, the rest of the script and the draw counter are kept (assumption 18), no
step of a tick is left (assumption 4), and `Load` is allowed again (assumption 5). -/
def Obligations.ResetState : Prop :=
  Config.font.length = 80 ∧ ∀ s : State, ∃ t, transact .reset s = .next t ∧
    (∀ a : Word, t.memRead a = if h : effAddr a < Config.font.length then Config.font[effAddr a] else 0) ∧
    (∀ x, t.reg x = 0) ∧ t.i = 0 ∧ t.pc = 0x200 ∧ t.stack = [] ∧ t.dt = 0 ∧ t.st = 0 ∧ t.paused = false ∧ t.waitReg = none ∧
    (∀ cx cy, t.fb.isLit cx cy = false) ∧ (∀ k : Fin 16, t.keys[k] = false) ∧ t.fault = none ∧
    t.params = s.params ∧ t.host = s.host ∧ t.draws = s.draws ∧ t.left = 0 ∧ t.loadable = true ∧
    t = { State.reset with params := s.params, host := s.host, draws := s.draws }

/-- R252, R49: a program image of at most 3584 bytes, loaded after reset, stands byte for byte from 0x200 on, every other byte and the
rest of the CORE are as before; a longer one is refused; so is a second load (spec's decision D31). The refusals and the field that
remembers the load are the model's form (assumption 5). -/
def Obligations.LoadPlacesTheImage : Prop :=
  ∀ (s : State) (image : List Byte), s.mem.wf →
    (s.loadable = true → image.length ≤ 3584 →
      ∃ t, transact (.load image) s = .next t ∧
        (∀ (k : Nat) (h : k < image.length), t.memRead (BitVec.ofNat 16 (0x200 + k)) = image[k]) ∧
        (∀ a : Word, effAddr a < 0x200 ∨ 0x200 + image.length ≤ effAddr a → t.memRead a = s.memRead a) ∧
        SameRegsBut [] s t ∧ t = { s with mem := t.mem, loadable := false }) ∧
    (s.loadable = true → 3584 < image.length → transact (.load image) s = .refused (.loadOverflow image.length)) ∧
    (s.loadable = false → transact (.load image) s = .refused .loadOutOfOrder)

/-! ## Invariants and the end of a run -/

/-- The invariant holds right after reset, whatever the model arguments and the host's script are. It rests on the reset values (the
spec's decisions D5 to D8, assumption 1) and on those of the model's own fields (assumptions 4, 5). -/
def Obligations.ResetSatisfiesInvariant : Prop :=
  State.reset.Inv ∧ ∀ (p : Config.Params) (h : List HostEvent) (d : Nat), ({ State.reset with params := p, host := h, draws := d }).Inv

/-- Every step keeps the invariant, from every state that has it: memory stays canonical, `PAUSED` and `WAITREG` stay paired (R30), the
stack stays within a finite depth (R16), the latch tells the truth about what was executed (R211, R212), the CORE is running inside a
tick (R224), and `Load` comes before anything has run (R252). The finite depth is the spec's decision D17, the latch D18, the single
`Load` D31 (assumptions 5, 11, 12); being inside a tick between steps is the model's form (assumption 4). -/
def Obligations.StepKeepsInvariant : Prop :=
  ∀ s t : State, s.Inv → step s = .next t → t.Inv

/-- R266: a finished program stays finished: only `PC` is rewritten, with the same value, and the timers change. That this is a finished
program, and the sentence of R266 stated here, are the spec's decision D30 (assumption 19); `readyToFetch` and the step are the model's
form (assumption 4). -/
def Obligations.FinishedProgramStaysFinished : Prop :=
  ∀ s : State, s.Finished → s.readyToFetch = true →
    ∃ t, step s = .next t ∧ t.Finished ∧
      t = { s with dt := t.dt, st := t.st, left := t.left, host := t.host, loadable := t.loadable }
end

