-- ==== Sys2Proof/Laws/Memory.lean ====
section
/-! SUPPORT. Memory keeps its canonical form, and a read after a write gives the value written at the address written and the old
value everywhere else (spec/20_memory.md R43, R45). -/

namespace Sys2Proof.Machine

theorem effAddr_lt (a : Word) : effAddr a < Config.memSize := Nat.mod_lt _ (by decide)

theorem Memory.wf_nil : Memory.wf [] := by decide

/-- An address below every cell of a list reads as an unlisted address. -/
theorem Memory.read_of_lt : ∀ {m : Memory} {a : Nat}, (∀ c ∈ m, a < c.1) → m.read a = unlisted a
  | [], _, _ => rfl
  | (k, b) :: rest, a, h => by
    have hk : a < k := h (k, b) (by simp)
    have hne : k ≠ a := by omega
    simp only [Memory.read, hne, if_false]
    exact Memory.read_of_lt fun c hc => h c (by simp [hc])

theorem Memory.read_cons {a : Nat} {b : Byte} {rest : Memory} (h : ∀ c ∈ rest, a < c.1) (a' : Nat) :
    (Memory.cons a b rest).read a' = if a' = a then b else rest.read a' := by
  unfold Memory.cons
  by_cases hb : b = unlisted a
  · by_cases ha : a' = a
    · subst ha; simp [hb, Memory.read_of_lt h]
    · simp [hb, ha]
  · by_cases ha : a' = a
    · subst ha; simp [hb, Memory.read]
    · have : a ≠ a' := fun h => ha h.symm
      simp [hb, ha, Memory.read, this]

theorem Memory.mem_cons {a : Nat} {b : Byte} {rest : Memory} {c : Host.Cell} (h : c ∈ Memory.cons a b rest) :
    (c = (a, b) ∧ b ≠ unlisted a) ∨ c ∈ rest := by
  unfold Memory.cons at h
  split at h
  · exact .inr h
  · rcases List.mem_cons.mp h with h | h
    · exact .inl ⟨h, ‹_›⟩
    · exact .inr h

/-- Every cell after a write is the cell written or was there before. -/
theorem Memory.mem_write : ∀ {m : Memory} {a : Nat} {b : Byte} {c : Host.Cell}, c ∈ m.write a b →
    (c = (a, b) ∧ b ≠ unlisted a) ∨ c ∈ m
  | [], a, b, c, h => by simpa using Memory.mem_cons (rest := []) h
  | (k, d) :: rest, a, b, c, h => by
    simp only [Memory.write] at h
    split at h
    · rcases List.mem_cons.mp h with h | h
      · exact .inr (by simp [h])
      · rcases Memory.mem_write h with h | h
        · exact .inl h
        · exact .inr (by simp [h])
    · split at h
      · rcases Memory.mem_cons h with h | h
        · exact .inl h
        · exact .inr (by simp [h])
      · exact Memory.mem_cons h

theorem Memory.sorted_cons {a : Nat} {b : Byte} {rest : Memory} (h : ∀ c ∈ rest, a < c.1)
    (hr : rest.Pairwise (fun c d => c.1 < d.1)) : (Memory.cons a b rest).Pairwise (fun c d => c.1 < d.1) := by
  unfold Memory.cons
  split
  · exact hr
  · exact List.pairwise_cons.mpr ⟨fun c hc => h c hc, hr⟩

theorem Memory.sorted_write : ∀ {m : Memory} {a : Nat} {b : Byte}, m.Pairwise (fun c d => c.1 < d.1) →
    (m.write a b).Pairwise (fun c d => c.1 < d.1)
  | [], a, b, _ => Memory.sorted_cons (by simp) List.Pairwise.nil
  | (k, d) :: rest, a, b, h => by
    obtain ⟨hk, hr⟩ := List.pairwise_cons.mp h
    simp only [Memory.write]
    split
    · refine List.pairwise_cons.mpr ⟨fun c hc => ?_, Memory.sorted_write hr⟩
      rcases Memory.mem_write hc with ⟨rfl, -⟩ | hc
      · assumption
      · exact hk c hc
    · split
      · exact Memory.sorted_cons (fun c hc => by have := hk c hc; simp only at this; omega) hr
      · refine Memory.sorted_cons (fun c hc => ?_) h
        rcases List.mem_cons.mp hc with rfl | hc
        · simp only; omega
        · have := hk c hc
          simp only at this
          omega

/-- A write inside the array keeps the canonical form. -/
theorem Memory.wf_write {m : Memory} {a : Nat} {b : Byte} (h : m.wf) (ha : a < Config.memSize) : (m.write a b).wf := by
  refine ⟨Memory.sorted_write h.1, fun c hc => ?_⟩
  rcases Memory.mem_write hc with ⟨rfl, hb⟩ | hc
  · exact ⟨ha, hb⟩
  · exact h.2 c hc

/-- A read after a write (sorted memory). -/
theorem Memory.read_write : ∀ {m : Memory} {a : Nat} {b : Byte}, m.Pairwise (fun c d => c.1 < d.1) → ∀ a' : Nat,
    (m.write a b).read a' = if a' = a then b else m.read a'
  | [], a, b, _, a' => Memory.read_cons (by simp) a'
  | (k, d) :: rest, a, b, h, a' => by
    obtain ⟨hk, hr⟩ := List.pairwise_cons.mp h
    simp only [Memory.write]
    split
    · simp only [Memory.read]
      by_cases hka : k = a'
      · have : a' ≠ a := by omega
        simp [hka, this]
      · simp [hka, Memory.read_write hr a']
    · split
      · rename_i hka
        subst hka
        rw [Memory.read_cons (fun c hc => hk c hc)]
        by_cases ha : a' = k
        · simp [ha]
        · have : k ≠ a' := fun h => ha h.symm
          simp [ha, Memory.read, this]
      · refine Memory.read_cons (fun c hc => ?_) a'
        rcases List.mem_cons.mp hc with rfl | hc
        · simp only; omega
        · have := hk c hc
          simp only at this
          omega

/-- `MemWrite` keeps the canonical form. -/
theorem State.memWrite_wf {s : State} (h : s.mem.wf) (a : Word) (b : Byte) : (s.memWrite a b).mem.wf :=
  Memory.wf_write h (effAddr_lt a)

/-- The byte at any address after a `MemWrite`. -/
theorem State.memRead_memWrite_of_wf {s : State} (h : s.mem.wf) (a : Word) (b : Byte) (a' : Word) :
    (s.memWrite a b).memRead a' = if effAddr a' = effAddr a then b else s.memRead a' :=
  Memory.read_write h.1 (effAddr a')

/-- Offsets below 4096 from one base give different bytes of the array. -/
theorem effAddr_offset_inj {base k j : Nat} (hk : k < 4096) (hj : j < 4096) (h : (base + k) % 4096 = (base + j) % 4096) : k = j := by
  omega

end Sys2Proof.Machine
end

