-- ==== Sys2Proof/Laws/State.lean ====
section
/-! SUPPORT. What each named update of the state does to each field: one lemma a field and update, true by `rfl`, so that no later
proof unfolds a record update. -/

namespace Sys2Proof.Machine

variable (s : State)

/-! ## `setReg` -/

@[simp] theorem State.setReg_mem (x : RegIx) (b : Byte) : (s.setReg x b).mem = s.mem := rfl
@[simp] theorem State.setReg_v (x : RegIx) (b : Byte) : (s.setReg x b).v = s.v.set x b := rfl
@[simp] theorem State.setReg_i (x : RegIx) (b : Byte) : (s.setReg x b).i = s.i := rfl
@[simp] theorem State.setReg_pc (x : RegIx) (b : Byte) : (s.setReg x b).pc = s.pc := rfl
@[simp] theorem State.setReg_stack (x : RegIx) (b : Byte) : (s.setReg x b).stack = s.stack := rfl
@[simp] theorem State.setReg_dt (x : RegIx) (b : Byte) : (s.setReg x b).dt = s.dt := rfl
@[simp] theorem State.setReg_st (x : RegIx) (b : Byte) : (s.setReg x b).st = s.st := rfl
@[simp] theorem State.setReg_paused (x : RegIx) (b : Byte) : (s.setReg x b).paused = s.paused := rfl
@[simp] theorem State.setReg_waitReg (x : RegIx) (b : Byte) : (s.setReg x b).waitReg = s.waitReg := rfl
@[simp] theorem State.setReg_fb (x : RegIx) (b : Byte) : (s.setReg x b).fb = s.fb := rfl
@[simp] theorem State.setReg_keys (x : RegIx) (b : Byte) : (s.setReg x b).keys = s.keys := rfl
@[simp] theorem State.setReg_fault (x : RegIx) (b : Byte) : (s.setReg x b).fault = s.fault := rfl
@[simp] theorem State.setReg_params (x : RegIx) (b : Byte) : (s.setReg x b).params = s.params := rfl
@[simp] theorem State.setReg_left (x : RegIx) (b : Byte) : (s.setReg x b).left = s.left := rfl
@[simp] theorem State.setReg_host (x : RegIx) (b : Byte) : (s.setReg x b).host = s.host := rfl
@[simp] theorem State.setReg_loadable (x : RegIx) (b : Byte) : (s.setReg x b).loadable = s.loadable := rfl
@[simp] theorem State.setReg_draws (x : RegIx) (b : Byte) : (s.setReg x b).draws = s.draws := rfl
@[simp] theorem State.setReg_memRead (x : RegIx) (b : Byte) (addr : Word) : (s.setReg x b).memRead addr = s.memRead addr := rfl

/-! ## `setI` -/

@[simp] theorem State.setI_mem (w : Word) : (s.setI w).mem = s.mem := rfl
@[simp] theorem State.setI_v (w : Word) : (s.setI w).v = s.v := rfl
@[simp] theorem State.setI_i (w : Word) : (s.setI w).i = w := rfl
@[simp] theorem State.setI_pc (w : Word) : (s.setI w).pc = s.pc := rfl
@[simp] theorem State.setI_stack (w : Word) : (s.setI w).stack = s.stack := rfl
@[simp] theorem State.setI_dt (w : Word) : (s.setI w).dt = s.dt := rfl
@[simp] theorem State.setI_st (w : Word) : (s.setI w).st = s.st := rfl
@[simp] theorem State.setI_paused (w : Word) : (s.setI w).paused = s.paused := rfl
@[simp] theorem State.setI_waitReg (w : Word) : (s.setI w).waitReg = s.waitReg := rfl
@[simp] theorem State.setI_fb (w : Word) : (s.setI w).fb = s.fb := rfl
@[simp] theorem State.setI_keys (w : Word) : (s.setI w).keys = s.keys := rfl
@[simp] theorem State.setI_fault (w : Word) : (s.setI w).fault = s.fault := rfl
@[simp] theorem State.setI_params (w : Word) : (s.setI w).params = s.params := rfl
@[simp] theorem State.setI_left (w : Word) : (s.setI w).left = s.left := rfl
@[simp] theorem State.setI_host (w : Word) : (s.setI w).host = s.host := rfl
@[simp] theorem State.setI_loadable (w : Word) : (s.setI w).loadable = s.loadable := rfl
@[simp] theorem State.setI_draws (w : Word) : (s.setI w).draws = s.draws := rfl
@[simp] theorem State.setI_reg (w : Word) (r : RegIx) : (s.setI w).reg r = s.reg r := rfl
@[simp] theorem State.setI_memRead (w : Word) (addr : Word) : (s.setI w).memRead addr = s.memRead addr := rfl

/-! ## `setPc` -/

@[simp] theorem State.setPc_mem (w : Word) : (s.setPc w).mem = s.mem := rfl
@[simp] theorem State.setPc_v (w : Word) : (s.setPc w).v = s.v := rfl
@[simp] theorem State.setPc_i (w : Word) : (s.setPc w).i = s.i := rfl
@[simp] theorem State.setPc_pc (w : Word) : (s.setPc w).pc = w := rfl
@[simp] theorem State.setPc_stack (w : Word) : (s.setPc w).stack = s.stack := rfl
@[simp] theorem State.setPc_dt (w : Word) : (s.setPc w).dt = s.dt := rfl
@[simp] theorem State.setPc_st (w : Word) : (s.setPc w).st = s.st := rfl
@[simp] theorem State.setPc_paused (w : Word) : (s.setPc w).paused = s.paused := rfl
@[simp] theorem State.setPc_waitReg (w : Word) : (s.setPc w).waitReg = s.waitReg := rfl
@[simp] theorem State.setPc_fb (w : Word) : (s.setPc w).fb = s.fb := rfl
@[simp] theorem State.setPc_keys (w : Word) : (s.setPc w).keys = s.keys := rfl
@[simp] theorem State.setPc_fault (w : Word) : (s.setPc w).fault = s.fault := rfl
@[simp] theorem State.setPc_params (w : Word) : (s.setPc w).params = s.params := rfl
@[simp] theorem State.setPc_left (w : Word) : (s.setPc w).left = s.left := rfl
@[simp] theorem State.setPc_host (w : Word) : (s.setPc w).host = s.host := rfl
@[simp] theorem State.setPc_loadable (w : Word) : (s.setPc w).loadable = s.loadable := rfl
@[simp] theorem State.setPc_draws (w : Word) : (s.setPc w).draws = s.draws := rfl
@[simp] theorem State.setPc_reg (w : Word) (r : RegIx) : (s.setPc w).reg r = s.reg r := rfl
@[simp] theorem State.setPc_memRead (w : Word) (addr : Word) : (s.setPc w).memRead addr = s.memRead addr := rfl

/-! ## `advancePc` -/

@[simp] theorem State.advancePc_mem : s.advancePc.mem = s.mem := rfl
@[simp] theorem State.advancePc_v : s.advancePc.v = s.v := rfl
@[simp] theorem State.advancePc_i : s.advancePc.i = s.i := rfl
@[simp] theorem State.advancePc_pc : s.advancePc.pc = s.pc + 2 := rfl
@[simp] theorem State.advancePc_stack : s.advancePc.stack = s.stack := rfl
@[simp] theorem State.advancePc_dt : s.advancePc.dt = s.dt := rfl
@[simp] theorem State.advancePc_st : s.advancePc.st = s.st := rfl
@[simp] theorem State.advancePc_paused : s.advancePc.paused = s.paused := rfl
@[simp] theorem State.advancePc_waitReg : s.advancePc.waitReg = s.waitReg := rfl
@[simp] theorem State.advancePc_fb : s.advancePc.fb = s.fb := rfl
@[simp] theorem State.advancePc_keys : s.advancePc.keys = s.keys := rfl
@[simp] theorem State.advancePc_fault : s.advancePc.fault = s.fault := rfl
@[simp] theorem State.advancePc_params : s.advancePc.params = s.params := rfl
@[simp] theorem State.advancePc_left : s.advancePc.left = s.left := rfl
@[simp] theorem State.advancePc_host : s.advancePc.host = s.host := rfl
@[simp] theorem State.advancePc_loadable : s.advancePc.loadable = s.loadable := rfl
@[simp] theorem State.advancePc_draws : s.advancePc.draws = s.draws := rfl
@[simp] theorem State.advancePc_reg (r : RegIx) : s.advancePc.reg r = s.reg r := rfl
@[simp] theorem State.advancePc_memRead (addr : Word) : s.advancePc.memRead addr = s.memRead addr := rfl

/-! ## `setDT` -/

@[simp] theorem State.setDT_mem (b : Byte) : (s.setDT b).mem = s.mem := rfl
@[simp] theorem State.setDT_v (b : Byte) : (s.setDT b).v = s.v := rfl
@[simp] theorem State.setDT_i (b : Byte) : (s.setDT b).i = s.i := rfl
@[simp] theorem State.setDT_pc (b : Byte) : (s.setDT b).pc = s.pc := rfl
@[simp] theorem State.setDT_stack (b : Byte) : (s.setDT b).stack = s.stack := rfl
@[simp] theorem State.setDT_dt (b : Byte) : (s.setDT b).dt = b := rfl
@[simp] theorem State.setDT_st (b : Byte) : (s.setDT b).st = s.st := rfl
@[simp] theorem State.setDT_paused (b : Byte) : (s.setDT b).paused = s.paused := rfl
@[simp] theorem State.setDT_waitReg (b : Byte) : (s.setDT b).waitReg = s.waitReg := rfl
@[simp] theorem State.setDT_fb (b : Byte) : (s.setDT b).fb = s.fb := rfl
@[simp] theorem State.setDT_keys (b : Byte) : (s.setDT b).keys = s.keys := rfl
@[simp] theorem State.setDT_fault (b : Byte) : (s.setDT b).fault = s.fault := rfl
@[simp] theorem State.setDT_params (b : Byte) : (s.setDT b).params = s.params := rfl
@[simp] theorem State.setDT_left (b : Byte) : (s.setDT b).left = s.left := rfl
@[simp] theorem State.setDT_host (b : Byte) : (s.setDT b).host = s.host := rfl
@[simp] theorem State.setDT_loadable (b : Byte) : (s.setDT b).loadable = s.loadable := rfl
@[simp] theorem State.setDT_draws (b : Byte) : (s.setDT b).draws = s.draws := rfl
@[simp] theorem State.setDT_reg (b : Byte) (r : RegIx) : (s.setDT b).reg r = s.reg r := rfl
@[simp] theorem State.setDT_memRead (b : Byte) (addr : Word) : (s.setDT b).memRead addr = s.memRead addr := rfl

/-! ## `setST` -/

@[simp] theorem State.setST_mem (b : Byte) : (s.setST b).mem = s.mem := rfl
@[simp] theorem State.setST_v (b : Byte) : (s.setST b).v = s.v := rfl
@[simp] theorem State.setST_i (b : Byte) : (s.setST b).i = s.i := rfl
@[simp] theorem State.setST_pc (b : Byte) : (s.setST b).pc = s.pc := rfl
@[simp] theorem State.setST_stack (b : Byte) : (s.setST b).stack = s.stack := rfl
@[simp] theorem State.setST_dt (b : Byte) : (s.setST b).dt = s.dt := rfl
@[simp] theorem State.setST_st (b : Byte) : (s.setST b).st = b := rfl
@[simp] theorem State.setST_paused (b : Byte) : (s.setST b).paused = s.paused := rfl
@[simp] theorem State.setST_waitReg (b : Byte) : (s.setST b).waitReg = s.waitReg := rfl
@[simp] theorem State.setST_fb (b : Byte) : (s.setST b).fb = s.fb := rfl
@[simp] theorem State.setST_keys (b : Byte) : (s.setST b).keys = s.keys := rfl
@[simp] theorem State.setST_fault (b : Byte) : (s.setST b).fault = s.fault := rfl
@[simp] theorem State.setST_params (b : Byte) : (s.setST b).params = s.params := rfl
@[simp] theorem State.setST_left (b : Byte) : (s.setST b).left = s.left := rfl
@[simp] theorem State.setST_host (b : Byte) : (s.setST b).host = s.host := rfl
@[simp] theorem State.setST_loadable (b : Byte) : (s.setST b).loadable = s.loadable := rfl
@[simp] theorem State.setST_draws (b : Byte) : (s.setST b).draws = s.draws := rfl
@[simp] theorem State.setST_reg (b : Byte) (r : RegIx) : (s.setST b).reg r = s.reg r := rfl
@[simp] theorem State.setST_memRead (b : Byte) (addr : Word) : (s.setST b).memRead addr = s.memRead addr := rfl

/-! ## `setStack` -/

@[simp] theorem State.setStack_mem (l : List Word) : (s.setStack l).mem = s.mem := rfl
@[simp] theorem State.setStack_v (l : List Word) : (s.setStack l).v = s.v := rfl
@[simp] theorem State.setStack_i (l : List Word) : (s.setStack l).i = s.i := rfl
@[simp] theorem State.setStack_pc (l : List Word) : (s.setStack l).pc = s.pc := rfl
@[simp] theorem State.setStack_stack (l : List Word) : (s.setStack l).stack = l := rfl
@[simp] theorem State.setStack_dt (l : List Word) : (s.setStack l).dt = s.dt := rfl
@[simp] theorem State.setStack_st (l : List Word) : (s.setStack l).st = s.st := rfl
@[simp] theorem State.setStack_paused (l : List Word) : (s.setStack l).paused = s.paused := rfl
@[simp] theorem State.setStack_waitReg (l : List Word) : (s.setStack l).waitReg = s.waitReg := rfl
@[simp] theorem State.setStack_fb (l : List Word) : (s.setStack l).fb = s.fb := rfl
@[simp] theorem State.setStack_keys (l : List Word) : (s.setStack l).keys = s.keys := rfl
@[simp] theorem State.setStack_fault (l : List Word) : (s.setStack l).fault = s.fault := rfl
@[simp] theorem State.setStack_params (l : List Word) : (s.setStack l).params = s.params := rfl
@[simp] theorem State.setStack_left (l : List Word) : (s.setStack l).left = s.left := rfl
@[simp] theorem State.setStack_host (l : List Word) : (s.setStack l).host = s.host := rfl
@[simp] theorem State.setStack_loadable (l : List Word) : (s.setStack l).loadable = s.loadable := rfl
@[simp] theorem State.setStack_draws (l : List Word) : (s.setStack l).draws = s.draws := rfl
@[simp] theorem State.setStack_reg (l : List Word) (r : RegIx) : (s.setStack l).reg r = s.reg r := rfl
@[simp] theorem State.setStack_memRead (l : List Word) (addr : Word) : (s.setStack l).memRead addr = s.memRead addr := rfl

/-! ## `push` -/

@[simp] theorem State.push_mem (w : Word) : (s.push w).mem = s.mem := rfl
@[simp] theorem State.push_v (w : Word) : (s.push w).v = s.v := rfl
@[simp] theorem State.push_i (w : Word) : (s.push w).i = s.i := rfl
@[simp] theorem State.push_pc (w : Word) : (s.push w).pc = s.pc := rfl
@[simp] theorem State.push_stack (w : Word) : (s.push w).stack = w :: s.stack := rfl
@[simp] theorem State.push_dt (w : Word) : (s.push w).dt = s.dt := rfl
@[simp] theorem State.push_st (w : Word) : (s.push w).st = s.st := rfl
@[simp] theorem State.push_paused (w : Word) : (s.push w).paused = s.paused := rfl
@[simp] theorem State.push_waitReg (w : Word) : (s.push w).waitReg = s.waitReg := rfl
@[simp] theorem State.push_fb (w : Word) : (s.push w).fb = s.fb := rfl
@[simp] theorem State.push_keys (w : Word) : (s.push w).keys = s.keys := rfl
@[simp] theorem State.push_fault (w : Word) : (s.push w).fault = s.fault := rfl
@[simp] theorem State.push_params (w : Word) : (s.push w).params = s.params := rfl
@[simp] theorem State.push_left (w : Word) : (s.push w).left = s.left := rfl
@[simp] theorem State.push_host (w : Word) : (s.push w).host = s.host := rfl
@[simp] theorem State.push_loadable (w : Word) : (s.push w).loadable = s.loadable := rfl
@[simp] theorem State.push_draws (w : Word) : (s.push w).draws = s.draws := rfl
@[simp] theorem State.push_reg (w : Word) (r : RegIx) : (s.push w).reg r = s.reg r := rfl
@[simp] theorem State.push_memRead (w : Word) (addr : Word) : (s.push w).memRead addr = s.memRead addr := rfl

/-! ## `memWrite` -/

@[simp] theorem State.memWrite_mem (a : Word) (b : Byte) : (s.memWrite a b).mem = s.mem.write (effAddr a) b := rfl
@[simp] theorem State.memWrite_v (a : Word) (b : Byte) : (s.memWrite a b).v = s.v := rfl
@[simp] theorem State.memWrite_i (a : Word) (b : Byte) : (s.memWrite a b).i = s.i := rfl
@[simp] theorem State.memWrite_pc (a : Word) (b : Byte) : (s.memWrite a b).pc = s.pc := rfl
@[simp] theorem State.memWrite_stack (a : Word) (b : Byte) : (s.memWrite a b).stack = s.stack := rfl
@[simp] theorem State.memWrite_dt (a : Word) (b : Byte) : (s.memWrite a b).dt = s.dt := rfl
@[simp] theorem State.memWrite_st (a : Word) (b : Byte) : (s.memWrite a b).st = s.st := rfl
@[simp] theorem State.memWrite_paused (a : Word) (b : Byte) : (s.memWrite a b).paused = s.paused := rfl
@[simp] theorem State.memWrite_waitReg (a : Word) (b : Byte) : (s.memWrite a b).waitReg = s.waitReg := rfl
@[simp] theorem State.memWrite_fb (a : Word) (b : Byte) : (s.memWrite a b).fb = s.fb := rfl
@[simp] theorem State.memWrite_keys (a : Word) (b : Byte) : (s.memWrite a b).keys = s.keys := rfl
@[simp] theorem State.memWrite_fault (a : Word) (b : Byte) : (s.memWrite a b).fault = s.fault := rfl
@[simp] theorem State.memWrite_params (a : Word) (b : Byte) : (s.memWrite a b).params = s.params := rfl
@[simp] theorem State.memWrite_left (a : Word) (b : Byte) : (s.memWrite a b).left = s.left := rfl
@[simp] theorem State.memWrite_host (a : Word) (b : Byte) : (s.memWrite a b).host = s.host := rfl
@[simp] theorem State.memWrite_loadable (a : Word) (b : Byte) : (s.memWrite a b).loadable = s.loadable := rfl
@[simp] theorem State.memWrite_draws (a : Word) (b : Byte) : (s.memWrite a b).draws = s.draws := rfl
@[simp] theorem State.memWrite_reg (a : Word) (b : Byte) (r : RegIx) : (s.memWrite a b).reg r = s.reg r := rfl

/-! ## `raiseFatal` -/

@[simp] theorem State.raiseFatal_mem (c : FatalCause) (w a : Word) : (s.raiseFatal c w a).mem = s.mem := rfl
@[simp] theorem State.raiseFatal_v (c : FatalCause) (w a : Word) : (s.raiseFatal c w a).v = s.v := rfl
@[simp] theorem State.raiseFatal_i (c : FatalCause) (w a : Word) : (s.raiseFatal c w a).i = s.i := rfl
@[simp] theorem State.raiseFatal_pc (c : FatalCause) (w a : Word) : (s.raiseFatal c w a).pc = s.pc := rfl
@[simp] theorem State.raiseFatal_stack (c : FatalCause) (w a : Word) : (s.raiseFatal c w a).stack = s.stack := rfl
@[simp] theorem State.raiseFatal_dt (c : FatalCause) (w a : Word) : (s.raiseFatal c w a).dt = s.dt := rfl
@[simp] theorem State.raiseFatal_st (c : FatalCause) (w a : Word) : (s.raiseFatal c w a).st = s.st := rfl
@[simp] theorem State.raiseFatal_paused (c : FatalCause) (w a : Word) : (s.raiseFatal c w a).paused = s.paused := rfl
@[simp] theorem State.raiseFatal_waitReg (c : FatalCause) (w a : Word) : (s.raiseFatal c w a).waitReg = s.waitReg := rfl
@[simp] theorem State.raiseFatal_fb (c : FatalCause) (w a : Word) : (s.raiseFatal c w a).fb = s.fb := rfl
@[simp] theorem State.raiseFatal_keys (c : FatalCause) (w a : Word) : (s.raiseFatal c w a).keys = s.keys := rfl
@[simp] theorem State.raiseFatal_fault (c : FatalCause) (w a : Word) : (s.raiseFatal c w a).fault = some ⟨c, w, a⟩ := rfl
@[simp] theorem State.raiseFatal_params (c : FatalCause) (w a : Word) : (s.raiseFatal c w a).params = s.params := rfl
@[simp] theorem State.raiseFatal_left (c : FatalCause) (w a : Word) : (s.raiseFatal c w a).left = s.left := rfl
@[simp] theorem State.raiseFatal_host (c : FatalCause) (w a : Word) : (s.raiseFatal c w a).host = s.host := rfl
@[simp] theorem State.raiseFatal_loadable (c : FatalCause) (w a : Word) : (s.raiseFatal c w a).loadable = s.loadable := rfl
@[simp] theorem State.raiseFatal_draws (c : FatalCause) (w a : Word) : (s.raiseFatal c w a).draws = s.draws := rfl
@[simp] theorem State.raiseFatal_reg (c : FatalCause) (w a : Word) (r : RegIx) : (s.raiseFatal c w a).reg r = s.reg r := rfl
@[simp] theorem State.raiseFatal_memRead (c : FatalCause) (w a : Word) (addr : Word) : (s.raiseFatal c w a).memRead addr = s.memRead addr := rfl

/-! ## `awaitKey` -/

@[simp] theorem State.awaitKey_mem (x : RegIx) : (s.awaitKey x).mem = s.mem := rfl
@[simp] theorem State.awaitKey_v (x : RegIx) : (s.awaitKey x).v = s.v := rfl
@[simp] theorem State.awaitKey_i (x : RegIx) : (s.awaitKey x).i = s.i := rfl
@[simp] theorem State.awaitKey_pc (x : RegIx) : (s.awaitKey x).pc = s.pc := rfl
@[simp] theorem State.awaitKey_stack (x : RegIx) : (s.awaitKey x).stack = s.stack := rfl
@[simp] theorem State.awaitKey_dt (x : RegIx) : (s.awaitKey x).dt = s.dt := rfl
@[simp] theorem State.awaitKey_st (x : RegIx) : (s.awaitKey x).st = s.st := rfl
@[simp] theorem State.awaitKey_paused (x : RegIx) : (s.awaitKey x).paused = true := rfl
@[simp] theorem State.awaitKey_waitReg (x : RegIx) : (s.awaitKey x).waitReg = some x := rfl
@[simp] theorem State.awaitKey_fb (x : RegIx) : (s.awaitKey x).fb = s.fb := rfl
@[simp] theorem State.awaitKey_keys (x : RegIx) : (s.awaitKey x).keys = s.keys := rfl
@[simp] theorem State.awaitKey_fault (x : RegIx) : (s.awaitKey x).fault = s.fault := rfl
@[simp] theorem State.awaitKey_params (x : RegIx) : (s.awaitKey x).params = s.params := rfl
@[simp] theorem State.awaitKey_left (x : RegIx) : (s.awaitKey x).left = s.left := rfl
@[simp] theorem State.awaitKey_host (x : RegIx) : (s.awaitKey x).host = s.host := rfl
@[simp] theorem State.awaitKey_loadable (x : RegIx) : (s.awaitKey x).loadable = s.loadable := rfl
@[simp] theorem State.awaitKey_draws (x : RegIx) : (s.awaitKey x).draws = s.draws := rfl
@[simp] theorem State.awaitKey_reg (x : RegIx) (r : RegIx) : (s.awaitKey x).reg r = s.reg r := rfl
@[simp] theorem State.awaitKey_memRead (x : RegIx) (addr : Word) : (s.awaitKey x).memRead addr = s.memRead addr := rfl

/-! ## `resume` -/

@[simp] theorem State.resume_mem : s.resume.mem = s.mem := rfl
@[simp] theorem State.resume_v : s.resume.v = s.v := rfl
@[simp] theorem State.resume_i : s.resume.i = s.i := rfl
@[simp] theorem State.resume_pc : s.resume.pc = s.pc := rfl
@[simp] theorem State.resume_stack : s.resume.stack = s.stack := rfl
@[simp] theorem State.resume_dt : s.resume.dt = s.dt := rfl
@[simp] theorem State.resume_st : s.resume.st = s.st := rfl
@[simp] theorem State.resume_paused : s.resume.paused = false := rfl
@[simp] theorem State.resume_waitReg : s.resume.waitReg = none := rfl
@[simp] theorem State.resume_fb : s.resume.fb = s.fb := rfl
@[simp] theorem State.resume_keys : s.resume.keys = s.keys := rfl
@[simp] theorem State.resume_fault : s.resume.fault = s.fault := rfl
@[simp] theorem State.resume_params : s.resume.params = s.params := rfl
@[simp] theorem State.resume_left : s.resume.left = s.left := rfl
@[simp] theorem State.resume_host : s.resume.host = s.host := rfl
@[simp] theorem State.resume_loadable : s.resume.loadable = s.loadable := rfl
@[simp] theorem State.resume_draws : s.resume.draws = s.draws := rfl
@[simp] theorem State.resume_reg (r : RegIx) : s.resume.reg r = s.reg r := rfl
@[simp] theorem State.resume_memRead (addr : Word) : s.resume.memRead addr = s.memRead addr := rfl

/-! ## `setKey` -/

@[simp] theorem State.setKey_mem (k : Fin 16) (b : Bool) : (s.setKey k b).mem = s.mem := rfl
@[simp] theorem State.setKey_v (k : Fin 16) (b : Bool) : (s.setKey k b).v = s.v := rfl
@[simp] theorem State.setKey_i (k : Fin 16) (b : Bool) : (s.setKey k b).i = s.i := rfl
@[simp] theorem State.setKey_pc (k : Fin 16) (b : Bool) : (s.setKey k b).pc = s.pc := rfl
@[simp] theorem State.setKey_stack (k : Fin 16) (b : Bool) : (s.setKey k b).stack = s.stack := rfl
@[simp] theorem State.setKey_dt (k : Fin 16) (b : Bool) : (s.setKey k b).dt = s.dt := rfl
@[simp] theorem State.setKey_st (k : Fin 16) (b : Bool) : (s.setKey k b).st = s.st := rfl
@[simp] theorem State.setKey_paused (k : Fin 16) (b : Bool) : (s.setKey k b).paused = s.paused := rfl
@[simp] theorem State.setKey_waitReg (k : Fin 16) (b : Bool) : (s.setKey k b).waitReg = s.waitReg := rfl
@[simp] theorem State.setKey_fb (k : Fin 16) (b : Bool) : (s.setKey k b).fb = s.fb := rfl
@[simp] theorem State.setKey_keys (k : Fin 16) (b : Bool) : (s.setKey k b).keys = s.keys.set k b := rfl
@[simp] theorem State.setKey_fault (k : Fin 16) (b : Bool) : (s.setKey k b).fault = s.fault := rfl
@[simp] theorem State.setKey_params (k : Fin 16) (b : Bool) : (s.setKey k b).params = s.params := rfl
@[simp] theorem State.setKey_left (k : Fin 16) (b : Bool) : (s.setKey k b).left = s.left := rfl
@[simp] theorem State.setKey_host (k : Fin 16) (b : Bool) : (s.setKey k b).host = s.host := rfl
@[simp] theorem State.setKey_loadable (k : Fin 16) (b : Bool) : (s.setKey k b).loadable = s.loadable := rfl
@[simp] theorem State.setKey_draws (k : Fin 16) (b : Bool) : (s.setKey k b).draws = s.draws := rfl
@[simp] theorem State.setKey_reg (k : Fin 16) (b : Bool) (r : RegIx) : (s.setKey k b).reg r = s.reg r := rfl
@[simp] theorem State.setKey_memRead (k : Fin 16) (b : Bool) (addr : Word) : (s.setKey k b).memRead addr = s.memRead addr := rfl

/-! ## `countdown` -/

@[simp] theorem State.countdown_mem : s.countdown.mem = s.mem := rfl
@[simp] theorem State.countdown_v : s.countdown.v = s.v := rfl
@[simp] theorem State.countdown_i : s.countdown.i = s.i := rfl
@[simp] theorem State.countdown_pc : s.countdown.pc = s.pc := rfl
@[simp] theorem State.countdown_stack : s.countdown.stack = s.stack := rfl
@[simp] theorem State.countdown_dt : s.countdown.dt = decrement s.dt := rfl
@[simp] theorem State.countdown_st : s.countdown.st = decrement s.st := rfl
@[simp] theorem State.countdown_paused : s.countdown.paused = s.paused := rfl
@[simp] theorem State.countdown_waitReg : s.countdown.waitReg = s.waitReg := rfl
@[simp] theorem State.countdown_fb : s.countdown.fb = s.fb := rfl
@[simp] theorem State.countdown_keys : s.countdown.keys = s.keys := rfl
@[simp] theorem State.countdown_fault : s.countdown.fault = s.fault := rfl
@[simp] theorem State.countdown_params : s.countdown.params = s.params := rfl
@[simp] theorem State.countdown_left : s.countdown.left = s.left := rfl
@[simp] theorem State.countdown_host : s.countdown.host = s.host := rfl
@[simp] theorem State.countdown_loadable : s.countdown.loadable = s.loadable := rfl
@[simp] theorem State.countdown_draws : s.countdown.draws = s.draws := rfl
@[simp] theorem State.countdown_reg (r : RegIx) : s.countdown.reg r = s.reg r := rfl
@[simp] theorem State.countdown_memRead (addr : Word) : s.countdown.memRead addr = s.memRead addr := rfl

/-! ## `setFb` -/

@[simp] theorem State.setFb_mem (d : Display) : (s.setFb d).mem = s.mem := rfl
@[simp] theorem State.setFb_v (d : Display) : (s.setFb d).v = s.v := rfl
@[simp] theorem State.setFb_i (d : Display) : (s.setFb d).i = s.i := rfl
@[simp] theorem State.setFb_pc (d : Display) : (s.setFb d).pc = s.pc := rfl
@[simp] theorem State.setFb_stack (d : Display) : (s.setFb d).stack = s.stack := rfl
@[simp] theorem State.setFb_dt (d : Display) : (s.setFb d).dt = s.dt := rfl
@[simp] theorem State.setFb_st (d : Display) : (s.setFb d).st = s.st := rfl
@[simp] theorem State.setFb_paused (d : Display) : (s.setFb d).paused = s.paused := rfl
@[simp] theorem State.setFb_waitReg (d : Display) : (s.setFb d).waitReg = s.waitReg := rfl
@[simp] theorem State.setFb_fb (d : Display) : (s.setFb d).fb = d := rfl
@[simp] theorem State.setFb_keys (d : Display) : (s.setFb d).keys = s.keys := rfl
@[simp] theorem State.setFb_fault (d : Display) : (s.setFb d).fault = s.fault := rfl
@[simp] theorem State.setFb_params (d : Display) : (s.setFb d).params = s.params := rfl
@[simp] theorem State.setFb_left (d : Display) : (s.setFb d).left = s.left := rfl
@[simp] theorem State.setFb_host (d : Display) : (s.setFb d).host = s.host := rfl
@[simp] theorem State.setFb_loadable (d : Display) : (s.setFb d).loadable = s.loadable := rfl
@[simp] theorem State.setFb_draws (d : Display) : (s.setFb d).draws = s.draws := rfl
@[simp] theorem State.setFb_reg (d : Display) (r : RegIx) : (s.setFb d).reg r = s.reg r := rfl
@[simp] theorem State.setFb_memRead (d : Display) (addr : Word) : (s.setFb d).memRead addr = s.memRead addr := rfl

/-! ## `tookDraw` -/

@[simp] theorem State.tookDraw_mem : s.tookDraw.mem = s.mem := rfl
@[simp] theorem State.tookDraw_v : s.tookDraw.v = s.v := rfl
@[simp] theorem State.tookDraw_i : s.tookDraw.i = s.i := rfl
@[simp] theorem State.tookDraw_pc : s.tookDraw.pc = s.pc := rfl
@[simp] theorem State.tookDraw_stack : s.tookDraw.stack = s.stack := rfl
@[simp] theorem State.tookDraw_dt : s.tookDraw.dt = s.dt := rfl
@[simp] theorem State.tookDraw_st : s.tookDraw.st = s.st := rfl
@[simp] theorem State.tookDraw_paused : s.tookDraw.paused = s.paused := rfl
@[simp] theorem State.tookDraw_waitReg : s.tookDraw.waitReg = s.waitReg := rfl
@[simp] theorem State.tookDraw_fb : s.tookDraw.fb = s.fb := rfl
@[simp] theorem State.tookDraw_keys : s.tookDraw.keys = s.keys := rfl
@[simp] theorem State.tookDraw_fault : s.tookDraw.fault = s.fault := rfl
@[simp] theorem State.tookDraw_params : s.tookDraw.params = s.params := rfl
@[simp] theorem State.tookDraw_left : s.tookDraw.left = s.left := rfl
@[simp] theorem State.tookDraw_host : s.tookDraw.host = s.host := rfl
@[simp] theorem State.tookDraw_loadable : s.tookDraw.loadable = s.loadable := rfl
@[simp] theorem State.tookDraw_draws : s.tookDraw.draws = s.draws + 1 := rfl
@[simp] theorem State.tookDraw_reg (r : RegIx) : s.tookDraw.reg r = s.reg r := rfl
@[simp] theorem State.tookDraw_memRead (addr : Word) : s.tookDraw.memRead addr = s.memRead addr := rfl

end Sys2Proof.Machine
end

