-- ==== Sys2Proof/Laws/Ops.lean ====
section
/-! SUPPORT. One lemma for what each shared operation can do: registers, the two writes of a flag-writing ALU instruction, skips,
the display controller, timers, and the sequencing of outcomes. -/

namespace Sys2Proof.Machine

/-! ## Outcomes -/

@[simp] theorem andThen_next (s : State) (f : State → Outcome State Fault Refusal) : andThen (.next s) f = f s := rfl

/-- An `andThen` that answers a next state went through one. -/
theorem andThen_eq_next {o : Outcome State Fault Refusal} {f : State → Outcome State Fault Refusal} {t : State}
    (h : andThen o f = .next t) : ∃ s, o = .next s ∧ f s = .next t := by
  cases o with
  | next s => exact ⟨s, rfl, h⟩
  | fault r => cases h
  | refused r => cases h

/-! ## Registers -/

@[simp] theorem State.reg_setReg_same (s : State) (x : RegIx) (b : Byte) : (s.setReg x b).reg x = b := by
  simp [State.reg, State.setReg]

theorem State.reg_setReg (s : State) (x r : RegIx) (b : Byte) : (s.setReg x b).reg r = if r = x then b else s.reg r := by
  by_cases h : r = x
  · simp [h]
  · have hv : x.val ≠ r.val := fun e => h (Fin.ext e.symm)
    simp [State.reg, State.setReg, h, hv]

theorem State.reg_setReg_ne (s : State) {x r : RegIx} (h : r ≠ x) (b : Byte) : (s.setReg x b).reg r = s.reg r := by
  simp [State.reg_setReg, h]

/-- Two states with equal registers have equal register files. -/
theorem State.v_ext {s t : State} (h : ∀ r, s.reg r = t.reg r) : s.v = t.v := by
  apply Vector.ext
  intro k hk
  exact h ⟨k, hk⟩

/-! ## The two writes of R121 -/

/-- `WriteBoth` touches general registers only. -/
theorem writeBoth_eq (x : RegIx) (r f : Byte) (s : State) : writeBoth x r f s = { s with v := (writeBoth x r f s).v } := by
  unfold writeBoth
  cases s.params.vfWriteOrder <;> rfl

/-- Every register after `WriteBoth`. -/
theorem reg_writeBoth (x : RegIx) (r f : Byte) (s : State) (q : RegIx) :
    (writeBoth x r f s).reg q =
      match s.params.vfWriteOrder with
      | .flagLast => if q = flagReg then f else if q = x then r else s.reg q
      | .resultLast => if q = x then r else if q = flagReg then f else s.reg q := by
  unfold writeBoth
  cases s.params.vfWriteOrder <;> simp [State.reg_setReg]

/-! ## Skips -/

/-- A skip changes `PC` only. -/
theorem skipIf_eq (c : Bool) (s : State) : skipIf c s = s.setPc (if c then s.pc + 2 else s.pc) := by
  cases c <;> rfl

/-! ## The display controller -/

theorem Display.isLit_mod (d : Display) (cx cy : Nat) : d.isLit (cx % 64) (cy % 32) = d.isLit cx cy := by
  simp [Display.isLit]

/-- One pixel is set, every other is unchanged. -/
theorem Display.isLit_setPix (d : Display) (cx cy : Nat) (b : Bool) (px py : Nat) :
    (d.setPix cx cy b).isLit px py = if px % 64 = cx % 64 ∧ py % 32 = cy % 32 then b else d.isLit px py := by
  unfold Display.isLit Display.setPix
  by_cases hy : py % 32 = cy % 32
  · by_cases hx : px % 64 = cx % 64
    · simp [hy, hx]
    · have : cx % 64 ≠ px % 64 := fun h => hx h.symm
      simp [hy, hx, this]
  · have : cy % 32 ≠ py % 32 := fun h => hy h.symm
    simp [hy, this]

@[simp] theorem Display.isLit_cleared (px py : Nat) : Display.cleared.isLit px py = false := by
  simp [Display.isLit, Display.cleared]

/-- Two displays with equal pixels are equal. -/
theorem Display.ext_isLit {d e : Display} (h : ∀ c r, c < 64 → r < 32 → d.isLit c r = e.isLit c r) : d = e := by
  apply Vector.ext
  intro r hr
  apply Vector.ext
  intro c hc
  have := h c r hc hr
  simpa [Display.isLit, Nat.mod_eq_of_lt hc, Nat.mod_eq_of_lt hr] using this

/-! ## Timers -/

/-- A timer never goes below zero and loses one when it is not zero. -/
theorem decrement_toNat (b : Byte) : (decrement b).toNat = b.toNat - 1 := by
  unfold decrement
  by_cases h : b = 0
  · simp [h]
  · have hb : b.toNat ≠ 0 := fun e => h (BitVec.eq_of_toNat_eq (by simpa using e))
    have := b.isLt
    simp only [h, if_false, BitVec.toNat_sub]
    have h1 : (1 : Byte).toNat = 1 := rfl
    rw [h1]
    omega

end Sys2Proof.Machine
end

