-- ==== Sys2Proof/Laws/Blocks.lean ====
section
/-! SUPPORT. What the loops do: the block store and load (spec/42_index_memory.md R155, R156) and the sprite loops
(spec/43_display.md R174). -/

namespace Sys2Proof.Machine

theorem effAddr_offset (base : Word) {k : Nat} (hk : k < 4096) : effAddr (offsetAddr base k) = (base.toNat + k) % 4096 := by
  have : k % 2 ^ 16 = k := Nat.mod_eq_of_lt (by omega)
  simp only [effAddr, offsetAddr, Config.memSize, BitVec.toNat_add, BitVec.toNat_ofNat, this]
  omega

theorem regNo_val (r : RegIx) : regNo r.val = r := by
  apply Fin.ext
  simp [regNo, Fin.ofNat, Nat.mod_eq_of_lt r.isLt]

theorem regNo_inj {j k : Nat} (hj : j < 16) (hk : k < 16) (h : regNo j = regNo k) : j = k := by
  have := congrArg Fin.val h
  simp only [regNo, Fin.ofNat] at this
  omega

/-! ## The block store -/

theorem storeBlock_succ (n : Nat) (s : State) :
    storeBlock (n + 1) s =
      (storeBlock n s).memWrite (offsetAddr (storeBlock n s).i n) ((storeBlock n s).reg (regNo n)) := by
  simp [storeBlock, List.range_succ]

/-- The block store changes memory only. -/
theorem storeBlock_eq (n : Nat) (s : State) : storeBlock n s = { s with mem := (storeBlock n s).mem } := by
  induction n with
  | zero => rfl
  | succ n ih => rw [storeBlock_succ, ih]; rfl

@[simp] theorem storeBlock_reg (n : Nat) (s : State) (r : RegIx) : (storeBlock n s).reg r = s.reg r := by
  rw [storeBlock_eq]; rfl

@[simp] theorem storeBlock_i (n : Nat) (s : State) : (storeBlock n s).i = s.i := by
  rw [storeBlock_eq]

theorem storeBlock_wf {n : Nat} {s : State} (h : s.mem.wf) : (storeBlock n s).mem.wf := by
  induction n with
  | zero => exact h
  | succ n ih => rw [storeBlock_succ]; exact State.memWrite_wf ih _ _

/-- A byte the block store writes. -/
theorem storeBlock_memRead_in {n : Nat} {s : State} (h : s.mem.wf) (hn : n ≤ 16) {k : Nat} (hk : k < n) {a : Word}
    (ha : effAddr a = effAddr (offsetAddr s.i k)) : (storeBlock n s).memRead a = s.reg (regNo k) := by
  induction n with
  | zero => omega
  | succ n ih =>
    rw [storeBlock_succ, State.memRead_memWrite_of_wf (storeBlock_wf h)]
    by_cases hkn : k = n
    · simp [ha, hkn]
    · have hne : effAddr a ≠ effAddr (offsetAddr s.i n) := fun e => hkn <| by
        rw [ha, effAddr_offset _ (by omega), effAddr_offset _ (by omega)] at e
        exact effAddr_offset_inj (by omega) (by omega) e
      simp [hne, ih (by omega) (by omega)]

/-- A byte the block store leaves alone. -/
theorem storeBlock_memRead_out {n : Nat} {s : State} (h : s.mem.wf) {a : Word}
    (ha : ∀ k < n, effAddr a ≠ effAddr (offsetAddr s.i k)) : (storeBlock n s).memRead a = s.memRead a := by
  induction n with
  | zero => rfl
  | succ n ih =>
    rw [storeBlock_succ, State.memRead_memWrite_of_wf (storeBlock_wf h)]
    simp [ha n (by omega), ih fun k hk => ha k (by omega)]

/-! ## The block load -/

theorem loadBlock_succ (n : Nat) (s : State) :
    loadBlock (n + 1) s = (loadBlock n s).setReg (regNo n) ((loadBlock n s).memRead (offsetAddr (loadBlock n s).i n)) := by
  simp [loadBlock, List.range_succ]

/-- The block load changes general registers only. -/
theorem loadBlock_eq (n : Nat) (s : State) : loadBlock n s = { s with v := (loadBlock n s).v } := by
  induction n with
  | zero => rfl
  | succ n ih => rw [loadBlock_succ, ih]; rfl

/-- Every register after the block load. -/
theorem loadBlock_reg {n : Nat} (hn : n ≤ 16) (s : State) (r : RegIx) :
    (loadBlock n s).reg r = if r.val < n then s.memRead (offsetAddr s.i r.val) else s.reg r := by
  induction n with
  | zero => rfl
  | succ n ih =>
    have hi : (loadBlock n s).i = s.i := by rw [loadBlock_eq]
    have hm : ∀ a, (loadBlock n s).memRead a = s.memRead a := fun a => by rw [loadBlock_eq]; rfl
    rw [loadBlock_succ, State.reg_setReg, ih (by omega), hi, hm]
    by_cases h : r = regNo n
    · have hv : r.val = n := by
        subst h
        simp only [regNo, Fin.ofNat]
        omega
      simp [h.symm, hv]
    · have hv : r.val ≠ n := fun e => h (by rw [← e, regNo_val])
      by_cases hlt : r.val < n
      · simp [h, hlt, show r.val < n + 1 by omega]
      · simp [h, hlt, show ¬ r.val < n + 1 by omega]

/-! ## The sprite loops -/

/-- One plotted pixel: toggled; `VF` becomes 1 if it was lit; nothing else changes. -/
theorem plot_spec (cx cy : Nat) (s : State) :
    (∀ px py, (plot cx cy s).fb.isLit px py =
      if px % 64 = cx % 64 ∧ py % 32 = cy % 32 then !s.fb.isLit cx cy else s.fb.isLit px py) ∧
    (plot cx cy s).reg flagReg = (if s.fb.isLit cx cy then 1 else s.reg flagReg) ∧
    (∀ r, r ≠ flagReg → (plot cx cy s).reg r = s.reg r) ∧
    plot cx cy s = { s with fb := (plot cx cy s).fb, v := (plot cx cy s).v } := by
  by_cases h : s.fb.isLit cx cy
  · refine ⟨fun px py => ?_, ?_, fun r hr => ?_, ?_⟩
    · simp [plot, Display.toggle, h, Display.isLit_setPix]
    · simp [plot, Display.toggle, h]
    · simp [plot, Display.toggle, h, State.reg_setReg, hr]
    · simp [plot, Display.toggle, h, State.setFb, State.setReg]
  · refine ⟨fun px py => ?_, ?_, fun r hr => ?_, ?_⟩
    · simp [plot, Display.toggle, h, Display.isLit_setPix]
    · simp [plot, Display.toggle, h]
    · simp [plot, Display.toggle, h]
    · simp [plot, Display.toggle, h, State.setFb]

/-- The first `m` columns of a sprite row. -/
def drawCols (row : Byte) (x0 cy m : Nat) (s : State) : State :=
  (List.range m).foldl (fun t j => if spriteBit row j then plot (x0 + j) cy t else t) s

theorem drawCols_succ (row : Byte) (x0 cy m : Nat) (s : State) :
    drawCols row x0 cy (m + 1) s =
      if spriteBit row m then plot (x0 + m) cy (drawCols row x0 cy m s) else drawCols row x0 cy m s := by
  simp [drawCols, List.range_succ]

theorem drawRow_eq_drawCols (row : Byte) (x0 cy : Nat) (s : State) : drawRow row x0 cy s = drawCols row x0 cy 8 s := rfl

/-- A sprite row changes the display and general registers only. -/
theorem drawCols_eq (row : Byte) (x0 cy m : Nat) (s : State) :
    drawCols row x0 cy m s = { s with fb := (drawCols row x0 cy m s).fb, v := (drawCols row x0 cy m s).v } := by
  induction m with
  | zero => rfl
  | succ m ih =>
    rw [drawCols_succ]
    split
    · rw [(plot_spec (x0 + m) cy _).2.2.2, ih]
    · exact ih

/-- A sprite row changes no register but `VF`. -/
theorem drawCols_reg (row : Byte) (x0 cy m : Nat) (s : State) {r : RegIx} (hr : r ≠ flagReg) :
    (drawCols row x0 cy m s).reg r = s.reg r := by
  induction m with
  | zero => rfl
  | succ m ih =>
    rw [drawCols_succ]
    split
    · rw [(plot_spec (x0 + m) cy _).2.2.1 r hr, ih]
    · exact ih

/-- A pixel no 1 bit of the row falls on. -/
theorem drawCols_isLit_out (row : Byte) (x0 cy m : Nat) (s : State) {px py : Nat}
    (h : ∀ j < m, spriteBit row j = true → ¬ (px % 64 = (x0 + j) % 64 ∧ py % 32 = cy % 32)) :
    (drawCols row x0 cy m s).fb.isLit px py = s.fb.isLit px py := by
  induction m with
  | zero => rfl
  | succ m ih =>
    rw [drawCols_succ]
    split
    · rw [(plot_spec (x0 + m) cy _).1, if_neg (h m (by omega) ‹_›)]
      exact ih fun j hj => h j (by omega)
    · exact ih fun j hj => h j (by omega)

/-- A pixel a 1 bit of the row falls on. -/
theorem drawCols_isLit_in (row : Byte) (x0 cy m : Nat) (hm : m ≤ 8) (s : State) {px py j : Nat} (hj : j < m)
    (hb : spriteBit row j = true) (hx : px % 64 = (x0 + j) % 64) (hy : py % 32 = cy % 32) :
    (drawCols row x0 cy m s).fb.isLit px py = !s.fb.isLit px py := by
  induction m with
  | zero => omega
  | succ m ih =>
    rw [drawCols_succ]
    by_cases hjm : j = m
    · subst hjm
      have hout : (drawCols row x0 cy j s).fb.isLit (x0 + j) cy = s.fb.isLit (x0 + j) cy :=
        drawCols_isLit_out row x0 cy j s fun j' hj' _ e => by omega
      rw [if_pos hb, (plot_spec (x0 + j) cy _).1, if_pos ⟨hx, hy⟩, hout, ← Display.isLit_mod s.fb px py, hx, hy, Display.isLit_mod]
    · have hin := ih (by omega) (by omega)
      split
      · rw [(plot_spec (x0 + m) cy _).1, if_neg (by omega), hin]
      · exact hin

/-- `VF` after a sprite row: 1 if a 1 bit falls on a lit pixel, else as before. -/
theorem drawCols_flag (row : Byte) (x0 cy m : Nat) (hm : m ≤ 8) (s : State) :
    ((∃ j < m, spriteBit row j = true ∧ s.fb.isLit (x0 + j) cy = true) → (drawCols row x0 cy m s).reg flagReg = 1) ∧
    ((∀ j < m, spriteBit row j = true → s.fb.isLit (x0 + j) cy = false) →
      (drawCols row x0 cy m s).reg flagReg = s.reg flagReg) := by
  induction m with
  | zero => exact ⟨fun ⟨j, hj, _⟩ => by omega, fun _ => rfl⟩
  | succ m ih =>
    have hout : (drawCols row x0 cy m s).fb.isLit (x0 + m) cy = s.fb.isLit (x0 + m) cy :=
      drawCols_isLit_out row x0 cy m s fun j' hj' _ e => by omega
    obtain ⟨ih1, ih2⟩ := ih (by omega)
    rw [drawCols_succ]
    constructor
    · rintro ⟨j, hj, hb, hl⟩
      split
      · rename_i hbm
        rw [(plot_spec (x0 + m) cy _).2.1, hout]
        by_cases hlm : s.fb.isLit (x0 + m) cy = true
        · simp [hlm]
        · have : j ≠ m := fun e => hlm (e ▸ hl)
          simp [hlm, ih1 ⟨j, by omega, hb, hl⟩]
      · have : j ≠ m := fun e => ‹¬ _› (e ▸ hb)
        exact ih1 ⟨j, by omega, hb, hl⟩
    · intro h
      split
      · rw [(plot_spec (x0 + m) cy _).2.1, hout]
        simp [h m (by omega) ‹_›, ih2 fun j hj => h j (by omega)]
      · exact ih2 fun j hj => h j (by omega)

theorem drawRows_succ (base : Word) (x0 y0 n : Nat) (s : State) :
    drawRows base x0 y0 (n + 1) s =
      drawRow ((drawRows base x0 y0 n s).memRead (offsetAddr base n)) x0 (y0 + n) (drawRows base x0 y0 n s) := by
  simp [drawRows, List.range_succ]

/-- A sprite changes the display and general registers only. -/
theorem drawRows_eq (base : Word) (x0 y0 n : Nat) (s : State) :
    drawRows base x0 y0 n s =
      { s with fb := (drawRows base x0 y0 n s).fb, v := (drawRows base x0 y0 n s).v } := by
  induction n with
  | zero => rfl
  | succ n ih => rw [drawRows_succ, drawRow_eq_drawCols, drawCols_eq, ih]

theorem drawRows_memRead (base : Word) (x0 y0 n : Nat) (s : State) (a : Word) :
    (drawRows base x0 y0 n s).memRead a = s.memRead a := by
  rw [drawRows_eq]; rfl

/-- A sprite changes no register but `VF`. -/
theorem drawRows_reg (base : Word) (x0 y0 n : Nat) (s : State) {r : RegIx} (hr : r ≠ flagReg) :
    (drawRows base x0 y0 n s).reg r = s.reg r := by
  induction n with
  | zero => rfl
  | succ n ih => rw [drawRows_succ, drawRow_eq_drawCols, drawCols_reg _ _ _ _ _ hr, ih]

end Sys2Proof.Machine
end

