-- ==== Sys2Proof/Laws/Decode.lean ====
section
/-! SUPPORT. The nibbles of a word put together from fields, and a word put together from its nibbles (spec/30_encoding.md R61). -/

namespace Sys2Proof

@[simp] theorem regOf_fieldOf (x : RegIx) : regOf (fieldOf x) = x := rfl

@[simp] theorem fieldOf_regOf (x : Nibble) : fieldOf (regOf x) = x := rfl

/-- The four nibbles of a concatenation. -/
theorem nibbles_append (op x y n : Nibble) :
    nibble3 (op ++ x ++ y ++ n) = op ∧ nibble2 (op ++ x ++ y ++ n) = x ∧
    nibble1 (op ++ x ++ y ++ n) = y ∧ nibble0 (op ++ x ++ y ++ n) = n := by
  refine ⟨?_, ?_, ?_, ?_⟩ <;>
    (apply BitVec.eq_of_getLsbD_eq; intro k hk
     simp only [nibble3, nibble2, nibble1, nibble0, BitVec.getLsbD_extractLsb', BitVec.getLsbD_append]
     rcases k with _ | _ | _ | _ | k <;> first | omega | simp)

/-- Decoding a concatenation of four nibbles. -/
theorem decodeWord_append (op x y n : Nibble) : decodeWord (op ++ x ++ y ++ n) = decodeNibbles op x y n := by
  obtain ⟨h3, h2, h1, h0⟩ := nibbles_append op x y n
  unfold decodeWord
  rw [h3, h2, h1, h0]

/-- A word is its four nibbles. -/
theorem word_eq_nibbles (w : Word) : w = nibble3 w ++ nibble2 w ++ nibble1 w ++ nibble0 w := by
  apply BitVec.eq_of_getLsbD_eq; intro k hk
  simp only [nibble3, nibble2, nibble1, nibble0, BitVec.getLsbD_extractLsb', BitVec.getLsbD_append]
  have : k = 0 ∨ k = 1 ∨ k = 2 ∨ k = 3 ∨ k = 4 ∨ k = 5 ∨ k = 6 ∨ k = 7 ∨ k = 8 ∨ k = 9 ∨ k = 10 ∨ k = 11 ∨ k = 12 ∨
      k = 13 ∨ k = 14 ∨ k = 15 := by omega
  rcases this with rfl | rfl | rfl | rfl | rfl | rfl | rfl | rfl | rfl | rfl | rfl | rfl | rfl | rfl | rfl | rfl <;> simp

/-- A byte is two nibbles. -/
theorem byte_eq_nibbles (b : Byte) : ∃ y n : Nibble, b = y ++ n :=
  ⟨b.extractLsb' 4 4, b.extractLsb' 0 4, by
    apply BitVec.eq_of_getLsbD_eq; intro k hk
    simp only [BitVec.getLsbD_extractLsb', BitVec.getLsbD_append]
    rcases k with _ | _ | _ | _ | _ | _ | _ | _ | k <;> first | omega | simp⟩

/-- A 12-bit address is three nibbles. -/
theorem addr_eq_nibbles (a : Addr12) : ∃ x y n : Nibble, a = x ++ y ++ n :=
  ⟨a.extractLsb' 8 4, a.extractLsb' 4 4, a.extractLsb' 0 4, by
    apply BitVec.eq_of_getLsbD_eq; intro k hk
    simp only [BitVec.getLsbD_extractLsb', BitVec.getLsbD_append]
    rcases k with _ | _ | _ | _ | _ | _ | _ | _ | _ | _ | _ | _ | k <;> first | omega | simp⟩

/-- Format `XNN` as four nibbles. -/
theorem formatXNN_nibbles (op : Nibble) (x : RegIx) (y n : Nibble) :
    formatXNN op x (y ++ n) = op ++ fieldOf x ++ y ++ n := by
  unfold formatXNN
  apply BitVec.eq_of_getLsbD_eq; intro k hk
  simp only [BitVec.getLsbD_append]
  by_cases h4 : k < 4 <;> by_cases h8 : k < 8 <;> simp [h4, h8] <;> try omega
  by_cases h : k - 4 < 4
  · omega
  · simp [h, show k - 4 - 4 = k - 8 by omega]

/-- Format `X` is format `XNN` with a fixed low byte. -/
theorem formatX_eq (op : Nibble) (x : RegIx) (sub : Byte) : formatX op x sub = formatXNN op x sub := rfl

/-- Format `NNN` as four nibbles. -/
theorem formatNNN_nibbles (op x y n : Nibble) : formatNNN op (x ++ y ++ n) = op ++ x ++ y ++ n := by
  unfold formatNNN
  apply BitVec.eq_of_getLsbD_eq; intro k hk
  simp only [BitVec.getLsbD_append]
  by_cases h4 : k < 4 <;> by_cases h8 : k < 8 <;> by_cases h12 : k < 12 <;> simp [h4, h12] <;> try omega
  all_goals
    first
    | (have : k - 4 < 4 := by omega
       simp [this])
    | (have a : ¬ k - 4 < 4 := by omega
       have b : k - 4 - 4 < 4 := by omega
       simp [a, b])
    | (have a : ¬ k - 4 < 4 := by omega
       have b : ¬ k - 4 - 4 < 4 := by omega
       simp [a, b, show k - 4 - 4 - 4 = k - 12 by omega])

end Sys2Proof
end

