-- ==== Sys2Proof/Laws/Driver.lean ====
section
/-! SUPPORT. What the driver's pieces can do: the close of a step, the start of a tick, a load, and one move of the system, each said
once, so that no later proof unfolds `driverStep` (spec/60_exceptions.md R220 to R226). -/

namespace Sys2Proof.Machine

@[simp] theorem State.running_iff (s : State) : s.running = true ↔ s.fault = none ∧ s.paused = false := by
  simp [State.running]

theorem closeStep_stopped {k : Nat} {s : State} (h : s.running = false) : closeStep k s = { s with left := 0 } := by
  simp [closeStep, h]

theorem closeStep_last {s : State} (h : s.running = true) : closeStep 0 s = { s.countdown with left := 0 } := by
  rw [closeStep, if_pos h]

theorem closeStep_more {n : Nat} {s : State} (h : s.running = true) : closeStep (n + 1) s = { s with left := n + 1 } := by
  rw [closeStep, if_pos h]

/-- A tick begins in one of four ways. -/
theorem startTick_cases (s : State) :
    ((∃ r, s.fault = some r) ∧ startTick s = .next s) ∨
    (s.fault = none ∧ s.paused = true ∧ startTick s = .next { s with loadable := false }) ∨
    (s.fault = none ∧ s.paused = false ∧ s.params.ipf = 0 ∧
      startTick s = .next ({ s with loadable := false } : State).countdown) ∨
    (∃ k, s.fault = none ∧ s.paused = false ∧ s.params.ipf = k + 1 ∧
      startTick s = quantumStep k { s with loadable := false }) := by
  cases hf : s.fault with
  | some r => exact .inl ⟨⟨r, rfl⟩, by simp [startTick, hf]⟩
  | none =>
    cases hp : s.paused with
    | true => exact .inr (.inl ⟨rfl, rfl, by simp [startTick, hf, hp]⟩)
    | false =>
      cases hi : s.params.ipf with
      | zero => exact .inr (.inr (.inl ⟨rfl, rfl, rfl, by simp [startTick, hf, hp, hi]⟩))
      | succ k => exact .inr (.inr (.inr ⟨k, rfl, rfl, rfl, by simp [startTick, hf, hp, hi]⟩))

/-- One move: the next instruction of the tick, the end of a tick whose CORE does not run, the host's next transaction, a tick of an
empty script, or the stop. -/
theorem driverStep_cases (s : State) :
    (∃ k, s.left = k + 1 ∧ s.running = true ∧ driverStep s = quantumStep k s) ∨
    (∃ k, s.left = k + 1 ∧ s.running = false ∧ driverStep s = .next { s with left := 0 }) ∨
    (∃ e rest, s.left = 0 ∧ s.host = e :: rest ∧ driverStep s = transact e { s with host := rest }) ∨
    (s.left = 0 ∧ s.host = [] ∧ s.fault = none ∧ driverStep s = startTick s) ∨
    (∃ r, s.left = 0 ∧ s.host = [] ∧ s.fault = some r ∧ driverStep s = .fault (.halted r)) := by
  cases hl : s.left with
  | succ k =>
    cases hr : s.running with
    | true => exact .inl ⟨k, rfl, rfl, by simp [driverStep, hl, hr]⟩
    | false => exact .inr (.inl ⟨k, rfl, rfl, by simp [driverStep, hl, hr]⟩)
  | zero =>
    cases hh : s.host with
    | cons e rest => exact .inr (.inr (.inl ⟨e, rest, rfl, rfl, by simp [driverStep, hl, hh]⟩))
    | nil =>
      cases hf : s.fault with
      | none => exact .inr (.inr (.inr (.inl ⟨rfl, rfl, rfl, by simp [driverStep, hl, hh, hf]⟩)))
      | some r => exact .inr (.inr (.inr (.inr ⟨r, rfl, rfl, rfl, by simp [driverStep, hl, hh, hf]⟩)))

/-- An image changes memory only. -/
theorem placeImage_eq : ∀ (base : Nat) (image : List Byte) (s : State),
    placeImage base image s = { s with mem := (placeImage base image s).mem }
  | _, [], _ => rfl
  | base, b :: rest, s => by
    show placeImage (base + 1) rest (s.memWrite (BitVec.ofNat 16 base) b) = _
    rw [placeImage_eq (base + 1) rest]
    rfl

/-- An image keeps memory canonical. -/
theorem placeImage_wf : ∀ (base : Nat) (image : List Byte) {s : State}, s.mem.wf → (placeImage base image s).mem.wf
  | _, [], _, h => h
  | base, _ :: rest, _, h => placeImage_wf (base + 1) rest (State.memWrite_wf h _ _)

/-- A load that answers a next state: it came in time, the image fits, and only memory and the time for `Load` change. -/
theorem load_eq_next {image : List Byte} {s t : State} (h : load image s = .next t) :
    s.loadable = true ∧ image.length ≤ Config.progMax ∧
      t = { placeImage Config.progBase image s with loadable := false } := by
  unfold load at h
  cases hl : s.loadable with
  | false => simp [hl] at h
  | true =>
    by_cases hb : Config.progMax < image.length
    · simp [hl, hb] at h
    · simp only [hl, hb] at h
      simp only [Bool.not_true, if_false] at h
      exact ⟨rfl, by omega, by simpa using h.symm⟩

/-- A completed wait: the register, then running again; without a wait, nothing. -/
theorem completeWait_none {k : Fin 16} {s : State} (h : s.waitReg = none) : completeWait k s = s := by
  simp [completeWait, h]

theorem completeWait_some {k : Fin 16} {s : State} {r : RegIx} (h : s.waitReg = some r) :
    completeWait k s = (s.setReg r (BitVec.ofNat 8 k.val)).resume := by
  simp [completeWait, h]

end Sys2Proof.Machine
end

