-- ==== Sys2Proof/Laws/PerInstr.lean ====
section
/-! SUPPORT. The family `EncodesInRow`: the word of an instruction matches the instruction's own row of the opcode table
(spec/30_encoding.md R66), one lemma per constructor. -/

namespace Sys2Proof.Laws.EncodesInRow

/-- The word of `i` matches `i`'s row of R66. -/
def Statement (i : Instr) : Prop := i.row.Matches (encode i)

/-- `(a ++ b) & (c ++ d)`, part by part. -/
theorem append_and {m n : Nat} (a c : BitVec m) (b d : BitVec n) : (a ++ b) &&& (c ++ d) = (a &&& c) ++ (b &&& d) := by
  apply BitVec.eq_of_getLsbD_eq
  intro k hk
  simp only [BitVec.getLsbD_and, BitVec.getLsbD_append]
  by_cases h : k < n <;> simp [h]

theorem formatNNN_mask (op : Nibble) (nnn : Addr12) : formatNNN op nnn &&& 0xF000#16 = op ++ 0#12 := by
  show (op ++ nnn) &&& (0xF#4 ++ 0#12) = _
  rw [append_and]
  have : op &&& 0xF#4 = op := BitVec.and_allOnes
  rw [this, BitVec.and_zero]

theorem formatXNN_mask (op : Nibble) (x : RegIx) (nn : Byte) : formatXNN op x nn &&& 0xF000#16 = op ++ 0#4 ++ 0#8 := by
  show (op ++ fieldOf x ++ nn) &&& (0xF#4 ++ 0#4 ++ 0#8) = _
  rw [append_and, append_and]
  have : op &&& 0xF#4 = op := BitVec.and_allOnes
  rw [this, BitVec.and_zero, BitVec.and_zero]

theorem formatXYN_mask (op : Nibble) (x y : RegIx) (n : Nibble) :
    formatXYN op x y n &&& 0xF00F#16 = op ++ 0#4 ++ 0#4 ++ n := by
  show (op ++ fieldOf x ++ fieldOf y ++ n : Word) &&& (0xF#4 ++ 0#4 ++ 0#4 ++ 0xF#4 : Word) = (op ++ 0#4 ++ 0#4 ++ n : Word)
  rw [append_and, append_and, append_and]
  have (v : Nibble) : v &&& 0xF#4 = v := BitVec.and_allOnes
  rw [this, this, BitVec.and_zero, BitVec.and_zero]

theorem formatXYN_mask_op (op : Nibble) (x y : RegIx) (n : Nibble) :
    formatXYN op x y n &&& 0xF000#16 = op ++ 0#4 ++ 0#4 ++ 0#4 := by
  show (op ++ fieldOf x ++ fieldOf y ++ n : Word) &&& (0xF#4 ++ 0#4 ++ 0#4 ++ 0#4 : Word) = (op ++ 0#4 ++ 0#4 ++ 0#4 : Word)
  rw [append_and, append_and, append_and]
  have : op &&& 0xF#4 = op := BitVec.and_allOnes
  rw [this, BitVec.and_zero, BitVec.and_zero, BitVec.and_zero]

theorem formatX_mask (op : Nibble) (x : RegIx) (sub : Byte) : formatX op x sub &&& 0xF0FF#16 = op ++ 0#4 ++ sub := by
  show (op ++ fieldOf x ++ sub) &&& (0xF#4 ++ 0#4 ++ 0xFF#8) = _
  rw [append_and, append_and]
  have h4 : op &&& 0xF#4 = op := BitVec.and_allOnes
  have h8 : sub &&& 0xFF#8 = sub := BitVec.and_allOnes
  rw [h4, h8, BitVec.and_zero]

theorem cls : Statement .cls := by unfold Statement; decide
theorem ret : Statement .ret := by unfold Statement; decide
theorem jp (nnn : Addr12) : Statement (.jp nnn) := formatNNN_mask 0x1 nnn
theorem call (nnn : Addr12) : Statement (.call nnn) := formatNNN_mask 0x2 nnn
theorem seImm (x : RegIx) (nn : Byte) : Statement (.seImm x nn) := formatXNN_mask 0x3 x nn
theorem sneImm (x : RegIx) (nn : Byte) : Statement (.sneImm x nn) := formatXNN_mask 0x4 x nn
theorem seReg (x y : RegIx) : Statement (.seReg x y) := formatXYN_mask 0x5 x y 0x0
theorem ldImm (x : RegIx) (nn : Byte) : Statement (.ldImm x nn) := formatXNN_mask 0x6 x nn
theorem addImm (x : RegIx) (nn : Byte) : Statement (.addImm x nn) := formatXNN_mask 0x7 x nn
theorem ldReg (x y : RegIx) : Statement (.ldReg x y) := formatXYN_mask 0x8 x y 0x0
theorem orReg (x y : RegIx) : Statement (.orReg x y) := formatXYN_mask 0x8 x y 0x1
theorem andReg (x y : RegIx) : Statement (.andReg x y) := formatXYN_mask 0x8 x y 0x2
theorem xorReg (x y : RegIx) : Statement (.xorReg x y) := formatXYN_mask 0x8 x y 0x3
theorem addReg (x y : RegIx) : Statement (.addReg x y) := formatXYN_mask 0x8 x y 0x4
theorem subReg (x y : RegIx) : Statement (.subReg x y) := formatXYN_mask 0x8 x y 0x5
theorem shr (x y : RegIx) : Statement (.shr x y) := formatXYN_mask 0x8 x y 0x6
theorem subnReg (x y : RegIx) : Statement (.subnReg x y) := formatXYN_mask 0x8 x y 0x7
theorem shl (x y : RegIx) : Statement (.shl x y) := formatXYN_mask 0x8 x y 0xE
theorem sneReg (x y : RegIx) : Statement (.sneReg x y) := formatXYN_mask 0x9 x y 0x0
theorem ldI (nnn : Addr12) : Statement (.ldI nnn) := formatNNN_mask 0xA nnn
theorem jpV0 (nnn : Addr12) : Statement (.jpV0 nnn) := formatNNN_mask 0xB nnn
theorem rnd (x : RegIx) (nn : Byte) : Statement (.rnd x nn) := formatXNN_mask 0xC x nn
theorem drw (x y : RegIx) (n : Nat) : Statement (.drw x y n) := formatXYN_mask_op 0xD x y (BitVec.ofNat 4 n)
theorem skp (x : RegIx) : Statement (.skp x) := formatX_mask 0xE x 0x9E
theorem sknp (x : RegIx) : Statement (.sknp x) := formatX_mask 0xE x 0xA1
theorem ldVxDT (x : RegIx) : Statement (.ldVxDT x) := formatX_mask 0xF x 0x07
theorem ldVxK (x : RegIx) : Statement (.ldVxK x) := formatX_mask 0xF x 0x0A
theorem ldDTVx (x : RegIx) : Statement (.ldDTVx x) := formatX_mask 0xF x 0x15
theorem ldSTVx (x : RegIx) : Statement (.ldSTVx x) := formatX_mask 0xF x 0x18
theorem addI (x : RegIx) : Statement (.addI x) := formatX_mask 0xF x 0x1E
theorem ldF (x : RegIx) : Statement (.ldF x) := formatX_mask 0xF x 0x29
theorem ldB (x : RegIx) : Statement (.ldB x) := formatX_mask 0xF x 0x33
theorem storeRegs (x : RegIx) : Statement (.storeRegs x) := formatX_mask 0xF x 0x55
theorem loadRegs (x : RegIx) : Statement (.loadRegs x) := formatX_mask 0xF x 0x65

end Sys2Proof.Laws.EncodesInRow
end

