-- ==== Sys2Proof/Tests/Slice0.lean ====
section
/-! SUPPORT. The author's tests: ill-formed terms are refused, the spec's words decode, one step of each instruction on the spec's
vectors (spec/95_test_vectors.md, worked out there from the rules), and for every statement with hypotheses a concrete case that meets
them (`witness_…`, the clauses at the ends of their ranges). -/

namespace Sys2Proof.Tests

open Sys2Proof Sys2Proof.Machine

/-- One field of the next state, if there is one. -/
def look {α : Type} (o : Outcome State Fault Refusal) (f : State → α) : Option α :=
  match o with
  | .next t => some (f t)
  | .fault _ => none
  | .refused _ => none

/-- One step from `s` with the word `w` placed where it is fetched. -/
def one (w : Nat) (s : State) : Outcome State Fault Refusal := step (s.withFetchWord 16 w)

/-- Reset, `V1`, `V2` and `VF` = 55. -/
def regs12 (a b : Byte) : State := ((State.reset.setReg 1 a).setReg 2 b).setReg 15 0x55

/-- The three values seen after an ALU word. -/
def alu (w : Nat) (a b : Byte) : Option (Byte × Byte) := look (one w (regs12 a b)) (fun t => (t.reg 1, t.reg 15))

/-- Reset with the instruction at `a`. -/
def startAt (a : Word) : State := State.reset.setPc a

/-- Reset with `bytes` in memory from `a` on. -/
def withBytes (a : Nat) (bytes : List Byte) (s : State) : State := placeImage a bytes s

/-- The lit pixels among some coordinates. -/
def litAmong (l : List (Nat × Nat)) (s : State) : List (Nat × Nat) := l.filter (fun p => s.fb.isLit p.1 p.2)

/-! ## Well-formedness -/

theorem test_wf_refuses_height_16 : (Instr.drw 0 0 16).wellFormed = false := by decide
theorem test_wf_refuses_height_255 : (Instr.drw 15 15 255).wellFormed = false := by decide
theorem test_wf_takes_height_15 : (Instr.drw 15 15 15).wellFormed = true := by decide

/-! ## Decoding (words of spec/95_test_vectors.md 2.1 and of R66's encoding column) -/

theorem test_decode_0 : [0x00E0, 0x00EE].map decodeWord = [.ok .cls, .ok .ret] := rfl
theorem test_decode_0_illegal : [0x0000, 0x00E1, 0x00FE, 0x0123, 0x0EE0].map decodeWord = List.replicate 5 (.error .family0) := rfl
theorem test_decode_1_2 : [0x1ABC, 0x2ABC].map decodeWord = [.ok (.jp 0xABC), .ok (.call 0xABC)] := rfl
theorem test_decode_3_4 : [0x3A5C, 0x4A5C].map decodeWord = [.ok (.seImm 10 0x5C), .ok (.sneImm 10 0x5C)] := rfl
theorem test_decode_5_9 : [0x5120, 0x9120].map decodeWord = [.ok (.seReg 1 2), .ok (.sneReg 1 2)] := rfl
theorem test_decode_5_9_illegal : [0x5121, 0x512F, 0x9121].map decodeWord = [.error .family5, .error .family5, .error .family9] := rfl
theorem test_decode_6_7 : [0x6A2F, 0x71FF].map decodeWord = [.ok (.ldImm 10 0x2F), .ok (.addImm 1 0xFF)] := rfl
theorem test_decode_8 : [0x8120, 0x8121, 0x8122, 0x8123, 0x8124, 0x8125, 0x8126, 0x8127, 0x812E].map decodeWord =
    [.ok (.ldReg 1 2), .ok (.orReg 1 2), .ok (.andReg 1 2), .ok (.xorReg 1 2), .ok (.addReg 1 2), .ok (.subReg 1 2), .ok (.shr 1 2),
     .ok (.subnReg 1 2), .ok (.shl 1 2)] := rfl
theorem test_decode_8_illegal : [0x8128, 0x8129, 0x812A, 0x812B, 0x812C, 0x812D, 0x812F].map decodeWord =
    List.replicate 7 (.error .family8) := rfl
theorem test_decode_A_to_D : [0xA300, 0xBFFF, 0xC30F, 0xD12F, 0xD000].map decodeWord =
    [.ok (.ldI 0x300), .ok (.jpV0 0xFFF), .ok (.rnd 3 0x0F), .ok (.drw 1 2 15), .ok (.drw 0 0 0)] := rfl
theorem test_decode_E : [0xE19E, 0xE1A1, 0xE100, 0xE19F, 0xE1A0].map decodeWord =
    [.ok (.skp 1), .ok (.sknp 1), .error .familyE, .error .familyE, .error .familyE] := rfl
theorem test_decode_F : [0xF107, 0xF10A, 0xF115, 0xF118, 0xF11E, 0xF129, 0xF133, 0xF155, 0xF165].map decodeWord =
    [.ok (.ldVxDT 1), .ok (.ldVxK 1), .ok (.ldDTVx 1), .ok (.ldSTVx 1), .ok (.addI 1), .ok (.ldF 1), .ok (.ldB 1),
     .ok (.storeRegs 1), .ok (.loadRegs 1)] := rfl
theorem test_decode_F_illegal : [0xF100, 0xF175, 0xF185, 0xF130, 0xF1FF].map decodeWord = List.replicate 5 (.error .familyF) := rfl
/-- The high byte comes first (R60), and a lone byte is no instruction. -/
theorem test_decode_bytes : decodeBytes [0x1A, 0xBC, 0x77] = .ok (.jp 0xABC, [0x77]) ∧ decodeBytes [0x1A] = .error .truncated :=
  ⟨rfl, rfl⟩
theorem test_decode_table_word : decodeTableWord 16 0x8125 = some (.subReg 1 2) ∧ decodeTableWord 16 0x512F = none := ⟨rfl, rfl⟩

/-- Text and bytes of instructions of programs P1 to P6. -/
theorem test_text : [Instr.addReg 0 1, .addImm 1 0xFF, .call 0x210, .loadRegs 3, .drw 0 1 2, .storeRegs 2, .ldF 0].map Instr.text =
    ["ADD V0, V1", "ADD V1, 0xFF", "CALL 0x210", "LD V3, [I]", "DRW V0, V1, 0x2", "LD [I], V2", "LD F, V0"] := by decide
theorem test_emit : emit (.drw 0 1 2) = [0xD0, 0x12] ∧ emit (.storeRegs 2) = [0xF2, 0x55] ∧ emit .ret = [0x00, 0xEE] := by decide

/-! ## Control transfer (2.2) -/

theorem test_JP1 : look (one 0x1ABC (startAt 0x200)) (·.pc) = some 0xABC := by decide
theorem test_JP2_self_loop : look (one 0x1200 (startAt 0x200)) (·.pc) = some 0x200 := by decide
theorem test_CALL1 : look (one 0x2210 (startAt 0x204)) (fun t => (t.stack, t.pc)) = some ([0x206], 0x210) := by decide
theorem test_CALL2 : look (one 0x2300 (startAt 0xFFE)) (fun t => (t.stack, t.pc)) = some ([0x1000], 0x300) := by decide
theorem test_RET2 : look (one 0x00EE ((startAt 0x212).setStack [0x300, 0x206])) (fun t => (t.stack, t.pc)) = some ([0x206], 0x300) := by
  decide
theorem test_RET3_underflow : look (one 0x00EE (startAt 0x202)) (fun t => (t.fault, t.pc)) =
    some (some ⟨.stackUnderflow, 0x00EE, 0x202⟩, 0x204) := by decide
theorem test_SE1_SE2 : look (one 0x3100 ((startAt 0x208).setReg 1 0)) (·.pc) = some 0x20C ∧
    look (one 0x3100 ((startAt 0x208).setReg 1 1)) (·.pc) = some 0x20A := by decide
theorem test_SNE1_SNE2 : look (one 0x4205 ((startAt 0x300).setReg 2 7)) (·.pc) = some 0x304 ∧
    look (one 0x4207 ((startAt 0x300).setReg 2 7)) (·.pc) = some 0x302 := by decide
theorem test_SER1_SER2 : look (one 0x5340 (((startAt 0x220).setReg 3 0x2A).setReg 4 0x2A)) (·.pc) = some 0x224 ∧
    look (one 0x5340 (((startAt 0x220).setReg 3 0x2A).setReg 4 0x2B)) (·.pc) = some 0x222 := by decide
theorem test_SNER1_SNER2 : look (one 0x9340 (((startAt 0x220).setReg 3 1).setReg 4 2)) (·.pc) = some 0x224 ∧
    look (one 0x9330 ((startAt 0x220).setReg 3 1)) (·.pc) = some 0x222 := by decide
theorem test_JPV2 : look (one 0xBFFF (State.reset.setReg 0 3)) (·.pc) = some 0x1002 := by decide
theorem test_JPV3 : look (one 0xBFFF (State.reset.setReg 0 0xFF)) (·.pc) = some 0x10FE := by decide
theorem test_WRAP1 : look (step (withBytes 0xFFE [0x60, 0x01] (startAt 0xFFFE))) (fun t => (t.reg 0, t.pc)) = some (1, 0) := by decide
theorem test_WRAP2 : look (step ((withBytes 0xFFF [0x6A] (startAt 0xFFF)).memWrite 0 0x2F)) (fun t => (t.reg 10, t.pc)) =
    some (0x2F, 0x1001) := by decide

/-! ## Load, arithmetic, random (2.3) -/

theorem test_LD_imm : look (one 0x6A2F State.reset) (·.reg 10) = some 0x2F := by decide
theorem test_LD_reg : alu 0x8120 0xFE 0x01 = some (0x01, 0x55) := by decide
theorem test_ADDI2 : look (one 0x7101 (regs12 0xFF 0)) (fun t => (t.reg 1, t.reg 15)) = some (0, 0x55) := by decide
theorem test_ADDI3 : look (one 0x7F05 (State.reset.setReg 15 0x10)) (·.reg 15) = some 0x15 := by decide
theorem test_ADD : alu 0x8124 0x7F 0x7F = some (0xFE, 1) ∧ alu 0x8124 0xFE 0x01 = some (0xFF, 0) ∧
    alu 0x8124 0xFF 0x01 = some (0, 0) ∧ alu 0x8124 0xFF 0xFF = some (0xFE, 0) ∧ alu 0x8124 0x80 0x55 = some (0xD5, 1) := by decide
theorem test_ADD_flag_rules :
    (let p := fun r a => look (one 0x8124 { regs12 a 1 with params := { Config.defaultParams with addFlagRule := r } })
        (fun t => (t.reg 1, t.reg 15));
     p .geFF 0xFE = some (0xFF, 1) ∧ p .geFF 0xFF = some (0, 1) ∧ p .gtFF 0xFE = some (0xFF, 0) ∧ p .gtFF 0xFF = some (0, 1)) := by
  decide
theorem test_SUB : alu 0x8125 0x7F 0x7F = some (0, 0) ∧ alu 0x8125 0xFE 0x01 = some (0xFD, 1) ∧ alu 0x8125 0x00 0x01 = some (0xFF, 0) ∧
    alu 0x8125 0x40 0xAA = some (0x96, 0) := by decide
theorem test_SHR : alu 0x8126 0xFE 0x01 = some (0x7F, 0) ∧ alu 0x8126 0x81 0x03 = some (0x40, 1) := by decide
theorem test_SUBN : alu 0x8127 0xFE 0x01 = some (3, 0) ∧ alu 0x8127 0x00 0x01 = some (1, 1) ∧ alu 0x8127 0x10 0x10 = some (0, 0) := by
  decide
theorem test_SHL : alu 0x812E 0x7F 0x7F = some (0xFE, 0) ∧ alu 0x812E 0x81 0x03 = some (2, 0x80) := by decide
theorem test_SHL_bit_rule :
    look (one 0x812E { regs12 0x81 0 with params := { Config.defaultParams with shlFlagRule := .bit } })
      (fun t => (t.reg 1, t.reg 15)) = some (2, 1) := by decide
theorem test_OR : alu 0x8121 0x80 0x55 = some (0xD5, 0x55) := by decide
theorem test_AND : alu 0x8122 0x81 0x03 = some (0x01, 0x55) := by decide
theorem test_XOR : alu 0x8123 0x81 0x03 = some (0x82, 0x55) := by decide
/-- Destination `VF` under the two orders. -/
theorem test_dest_VF :
    (let p := fun o (w : Nat) (f b : Byte) =>
        look (one w { ((State.reset.setReg 15 f).setReg 2 b) with params := { Config.defaultParams with vfWriteOrder := o } })
          (fun t => t.reg 15);
     p .flagLast 0x8F24 0x10 0x10 = some 1 ∧ p .resultLast 0x8F24 0x10 0x10 = some 0x20 ∧
     p .flagLast 0x8F25 0x10 0x01 = some 1 ∧ p .resultLast 0x8F25 0x10 0x01 = some 0x0F ∧
     p .flagLast 0x8F2E 0x81 0x00 = some 0x80 ∧ p .resultLast 0x8F2E 0x81 0x00 = some 2) := by decide
theorem test_source_VF : look (one 0x81F4 ((State.reset.setReg 1 1).setReg 15 2)) (fun t => (t.reg 1, t.reg 15)) = some (3, 1) := by
  decide
/-- With the mask 0 the result is 0 whatever the draw, and the draw is taken. -/
theorem test_RND_mask_0 : look (one 0xC300 State.reset) (fun t => (t.draws, t.pc)) = some (1, 0x202) := by decide

/-! ## Index and memory (2.4) -/

theorem test_LDI : look (one 0xA300 State.reset) (·.i) = some 0x300 := by decide
theorem test_ADDI_index : look (one 0xF11E ((State.reset.setI 0xFFF).setReg 1 1)) (·.i) = some 0x1000 ∧
    look (one 0xF11E ((State.reset.setI 0xFFFF).setReg 1 2)) (·.i) = some 1 := by decide
theorem test_FONT : look (one 0xF429 (State.reset.setReg 4 0x0A)) (·.i) = some 0x32 ∧
    look (one 0xF429 (State.reset.setReg 4 0xFF)) (·.i) = some 0x4FB := by decide
theorem test_BCD1 : look (one 0xF033 ((State.reset.setI 0x300).setReg 0 0xFE))
    (fun t => (t.memRead 0x300, t.memRead 0x301, t.memRead 0x302)) = some (2, 5, 4) := by decide
theorem test_BCD4_wraps : look (one 0xF133 ((State.reset.setI 0xFFF).setReg 1 0xFF))
    (fun t => (t.memRead 0xFFF, t.memRead 0x000, t.memRead 0x001)) = some (2, 5, 5) := by decide
/-- `x` itself is not stored. -/
theorem test_ST1 : look (one 0xF255 (withBytes 0x400 [0xAA, 0xAA, 0xAA]
      ((((State.reset.setReg 0 0x11).setReg 1 0x22).setReg 2 0x33).setI 0x400)))
    (fun t => (t.memRead 0x400, t.memRead 0x401, t.memRead 0x402, t.i)) = some (0x11, 0x22, 0xAA, 0x400) := by decide
theorem test_ST2_stores_nothing : look (one 0xF055 (withBytes 0x400 [0xAA] ((State.reset.setReg 0 0x11).setI 0x400)))
    (·.memRead 0x400) = some 0xAA := by decide
/-- `x` itself is not loaded. -/
theorem test_LD1 : look (one 0xF365 (withBytes 0x300 [2, 5, 4, 9] ((State.reset.setReg 3 0x77).setI 0x300)))
    (fun t => (t.reg 0, t.reg 1, t.reg 2, t.reg 3, t.i)) = some (2, 5, 4, 0x77, 0x300) := by decide
theorem test_LD4_wraps : look (one 0xF265 (withBytes 0xFFF [0x5A] (State.reset.setI 0xFFF))) (fun t => (t.reg 0, t.reg 1)) =
    some (0x5A, 0xF0) := by decide
/-- Self-modifying code (P6): the next fetch sees the store. -/
theorem test_store_is_fetched : look (one 0xF255 (((State.reset.setReg 0 0x12).setReg 1 0x0A).setI 0x202)) (·.fetch) =
    some 0x120A := by decide

/-! ## Display (2.5) -/

theorem test_CLS : look (one 0x00E0 ((State.reset.setFb (State.reset.fb.setPix 63 31 true)).setReg 15 7))
    (fun t => (t.fb.isLit 63 31, t.reg 15)) = some (false, 7) := by decide
/-- D-3: the sprite wraps on both axes. -/
theorem test_DRW_wraps : look (one 0xD012 (withBytes 0x300 [0xF0, 0x80] (((State.reset.setI 0x300).setReg 0 62).setReg 1 31)))
    (fun t => (litAmong [(61, 31), (62, 31), (63, 31), (0, 31), (1, 31), (2, 31), (62, 0), (63, 0), (62, 1)] t, t.reg 15)) =
    some ([(62, 31), (63, 31), (0, 31), (1, 31), (62, 0)], 0) := by decide
/-- D-5: one pixel set, one cleared, so `VF` is 1. -/
theorem test_DRW_collision :
    look (one 0xD011 (withBytes 0x300 [0xC0] ((State.reset.setFb (State.reset.fb.setPix 1 0 true)).setI 0x300)))
      (fun t => (litAmong [(0, 0), (1, 0), (2, 0)] t, t.reg 15)) = some ([(0, 0)], 1) := by decide

/-! ## Keys and timers (2.6) -/

theorem test_SKP : look (one 0xE09E ((State.reset.setKey 5 true).setReg 0 5)) (·.pc) = some 0x204 ∧
    look (one 0xE09E (State.reset.setReg 0 5)) (·.pc) = some 0x202 := by decide
theorem test_SKP3_no_such_key : look (one 0xE09E ((State.reset.setKey 5 true).setReg 0 0x15)) (·.pc) = some 0x202 := by decide
theorem test_SKNP : look (one 0xE0A1 ((State.reset.setKey 5 true).setReg 0 5)) (·.pc) = some 0x202 ∧
    look (one 0xE0A1 (State.reset.setReg 0 6)) (·.pc) = some 0x204 := by decide
theorem test_SKNP3_no_such_key : look (one 0xE0A1 ((State.reset.setKey 5 true).setReg 0 0x15)) (·.pc) = some 0x204 := by decide
theorem test_DT1 : look (one 0xF207 (State.reset.setDT 3)) (·.reg 2) = some 3 := by decide
theorem test_DT2 : look (one 0xF015 (State.reset.setReg 0 3)) (·.dt) = some 3 := by decide
theorem test_ST_timer : look (one 0xF318 (State.reset.setReg 3 0x1E)) (fun t => (t.st, t.soundActive)) = some (0x1E, true) := by decide
/-- K-WAIT, and E8: the timers do not count in a tick that ends awaiting a key. -/
theorem test_WAIT : look (one 0xF10A ({ State.reset with left := 1 }.setDT 5))
    (fun t => (t.paused, t.waitReg, t.pc, t.reg 1, t.left, t.dt)) = some (true, some 1, 0x202, 0, 0, 5) := by decide

/-! ## Events and the driver (2.7, 2.8) -/

/-- E1: the last of a tick's steps is followed by the countdown. -/
theorem test_tick_ends : look (one 0x1200 ({ State.reset with left := 1 }.setDT 2)) (fun t => (t.dt, t.st, t.left, t.pc)) =
    some (1, 0, 0, 0x200) := by decide
/-- E3: a tick while awaiting a key. -/
theorem test_tick_paused : look (step ((State.reset.awaitKey 4).setDT 9)) (fun t => (t.dt, t.pc, t.paused)) = some (9, 0x200, true) := by
  decide
/-- E4. -/
theorem test_press_completes : look (step { (State.reset.awaitKey 4).setKey 2 true with host := [.keyPress 2] })
    (fun t => (t.reg 4, t.paused, t.waitReg, t.keys[2])) = some (2, false, none, true) := by decide
/-- E5. -/
theorem test_release : look (step { (State.reset.awaitKey 4).setKey 2 true with host := [.keyRelease 2] })
    (fun t => (t.keys[2], t.paused, t.waitReg)) = some (false, true, some 4) := by decide
/-- R230: a release with an index above 15 is dropped. -/
theorem test_release_16_dropped : look (step { State.reset.setKey 0 true with host := [.keyRelease 16] }) (fun t => (t.keys[0], t.host)) =
    some (true, []) := by decide
/-- E7: nothing happens in the fatal state. -/
theorem test_fatal_press : look (step { State.reset.raiseFatal .decodeError 0 0x202 with host := [.keyPress 1] }) (·.keys[1]) =
    some false := by decide
/-- E9: `IPF = 0`. -/
theorem test_tick_ipf_0 : look (step { State.reset.setDT 2 with params := { Config.defaultParams with ipf := 0 } })
    (fun t => (t.dt, t.pc)) = some (1, 0x200) := by decide
/-- F4: unloaded memory is an illegal word. -/
theorem test_empty_image : look (step State.reset) (fun t => (t.fault, t.pc, t.left)) =
    some (some ⟨.decodeError, 0, 0x200⟩, 0x202, 0) := by decide
/-- F5: the third push onto a stack of depth 2. -/
theorem test_overflow :
    look (one 0x2200 { State.reset.setStack [0x202, 0x202] with params := { Config.defaultParams with stackDepth := some 2 } })
      (fun t => (t.fault, t.stack, t.pc)) = some (some ⟨.stackOverflow, 0x2200, 0x200⟩, [0x202, 0x202], 0x202) := by decide
theorem test_load : look (step { State.reset with host := [.load [0x12, 0x34]] }) (fun t => (t.fetch, t.loadable)) =
    some (0x1234, false) := by decide
theorem test_reset_bytes : State.reset.memRead 0x000 = 0xF0 ∧ State.reset.memRead 0x04F = 0x80 ∧ State.reset.memRead 0x050 = 0 ∧
    State.reset.memRead 0x023 = 0xF0 ∧ State.reset.memRead 0x024 = 0x10 := by decide

/-! ## Witnesses: the hypotheses of each statement of Certificates/Slice0/Obligations.lean are met -/

/-- Reset in the middle of a tick, `n` steps left, the word `w` at 0x200. -/
def inTick (n : Nat) (w : Word) : State := { State.reset.placeWord w with left := n, loadable := false }

/-- Reset with a script, a finite stack depth of 2 and two return addresses on the stack. -/
def fullStack : State := { State.reset.setStack [0x202, 0x204] with params := { Config.defaultParams with stackDepth := some 2 } }

theorem witness_DecodeOfEncodeIsTheInstruction :
    (Instr.drw 0 15 0).WellFormed ∧ (Instr.drw 15 0 15).WellFormed ∧ (Instr.jp 0xFFF).WellFormed ∧ (Instr.shl 15 15).WellFormed := by
  decide
theorem witness_EncodeOfDecodeIsTheWord : decodeWord 0xD12F = .ok (.drw 1 2 15) ∧ decodeWord 0x00E0 = .ok .cls := ⟨rfl, rfl⟩
theorem witness_DecodeIsTheOpcodeTable : decodeWord 0x8FFE = .ok (.shl 15 15) ∧ (Instr.shl 0 0).row ∈ opcodeTable ∧
    (Instr.shl 0 0).row.Matches 0x8FFE := ⟨rfl, by decide, by decide⟩
theorem witness_IllegalWordsAreTheSixPatterns :
    decodeWord (0x0#4 ++ 0x0#4 ++ 0xE#4 ++ 0x1#4) = .error .family0 ∧ decodeWord (0x5#4 ++ 0x1#4 ++ 0x2#4 ++ 0x1#4) = .error .family5 ∧
    decodeWord (0x8#4 ++ 0x1#4 ++ 0x2#4 ++ 0x8#4) = .error .family8 ∧ decodeWord (0x9#4 ++ 0x1#4 ++ 0x2#4 ++ 0xF#4) = .error .family9 ∧
    decodeWord (0xE#4 ++ 0x1#4 ++ 0xA#4 ++ 0x0#4) = .error .familyE ∧ decodeWord (0xF#4 ++ 0x1#4 ++ 0x6#4 ++ 0x6#4) = .error .familyF ∧
    decodeWord (0xF#4 ++ 0x1#4 ++ 0x6#4 ++ 0x5#4) = .ok (.loadRegs 1) := ⟨rfl, rfl, rfl, rfl, rfl, rfl, rfl⟩
theorem witness_ReturnPopsOrIsFatal : (State.reset.setStack [0xFFFF]).stack = [0xFFFF] ∧ State.reset.stack = [] := ⟨rfl, rfl⟩
theorem witness_CallPushesOrIsFatal_unbounded : ∀ n, State.reset.params.stackDepth = some n → State.reset.stack.length < n :=
  fun _ h => by cases h
theorem witness_CallPushesOrIsFatal_room :
    (fullStack.setStack [0x202]).params.stackDepth = some 2 ∧ (fullStack.setStack [0x202]).stack.length < 2 := by decide
theorem witness_CallPushesOrIsFatal_full : fullStack.params.stackDepth = some fullStack.stack.length := by decide
theorem witness_ImmediateSkips : (regs12 0xFF 0).reg 1 = 0xFF ∧ (regs12 0xFF 0).reg 2 ≠ 0xFF := by decide
theorem witness_RegisterSkips : (regs12 7 7).reg 1 = (regs12 7 7).reg 2 ∧ (regs12 7 8).reg 1 ≠ (regs12 7 8).reg 2 := by decide
theorem witness_LogicOperations : (0 : Nat) < 8 ∧ (7 : Nat) < 8 := by decide
/-- Also for `AddWithFlag`, `SubtractionsWithFlag`, `ShiftRight` and `ShiftLeft`: the clauses of `WritesBoth`. -/
theorem witness_WriteBothFollowsTheOrder :
    (14 : RegIx) ≠ flagReg ∧ (15 : RegIx) = flagReg ∧ State.reset.params.vfWriteOrder = .flagLast ∧
    ({ State.reset with params := { Config.defaultParams with vfWriteOrder := .resultLast } } : State).params.vfWriteOrder =
      .resultLast := by decide
theorem witness_StoresDecimalDigits : (State.reset.setI 0xFFF).mem.wf ∧
    effAddr 0x1FFF = effAddr (offsetAddr (State.reset.setI 0xFFF).i 0) ∧ effAddr 0 = effAddr (offsetAddr (State.reset.setI 0xFFF).i 1) ∧
    effAddr 1 = effAddr (offsetAddr (State.reset.setI 0xFFF).i 2) := by decide
theorem witness_StoresRegistersBelowX : (State.reset.setI 0xFFF).mem.wf ∧ (14 : RegIx).val < (15 : RegIx).val ∧
    effAddr 0xD = effAddr (offsetAddr (State.reset.setI 0xFFF).i 14) := by decide
theorem witness_LoadsRegistersBelowX : (14 : RegIx).val < (15 : RegIx).val ∧ (15 : RegIx).val ≤ (15 : RegIx).val ∧
    (0 : RegIx).val ≤ (0 : RegIx).val := by decide
theorem witness_MemoryReadAfterWrite : (inTick 1 0x1200).mem.wf ∧ (0xFFFF : Word).toNat % 4096 = (0xFFF : Word).toNat % 4096 ∧
    (0x1000 : Word).toNat % 4096 ≠ (0xFFF : Word).toNat % 4096 := by decide
theorem witness_FetchIsBigEndianAndCoherent : (inTick 1 0x1200).mem.wf := by decide
theorem witness_ToggleInvertsOnePixel : 64 % 64 = 0 % 64 ∧ 32 % 32 = 0 % 32 ∧ ¬ (63 % 64 = 0 % 64 ∧ 32 % 32 = 0 % 32) := by decide
/-- D-3: the last column, the last row; a covered pixel, an uncovered one, a collision with the pixel lit, none on a clear display. -/
theorem witness_DrawInvertsCoveredPixels :
    (let s := withBytes 0x300 [0xF0, 0x80] (State.reset.setI 0x300)
     15 < 16 ∧ SpriteCovers s s.i 62 31 2 1 31 ∧ ¬ SpriteCovers s s.i 62 31 2 1 30 ∧ ¬ SpriteCollides s s.i 62 31 2 ∧
     SpriteCollides (s.setFb (s.fb.setPix 1 31 true)) s.i 62 31 2) := by
  refine ⟨by decide, ⟨0, 3, by decide⟩, ?_, ?_, ⟨1, 31, by decide, by decide, ⟨0, 3, by decide⟩, by decide⟩⟩
  · rintro ⟨k, j, hk, _, _, _, h⟩
    omega
  · rintro ⟨c, r, _, _, _, h⟩
    have : ∀ c < 64, ∀ r < 32, State.reset.fb.isLit c r = false := fun c _ r _ => by simp [State.reset, Display.isLit]
    exact Bool.false_ne_true ((this c ‹_› r ‹_›).symm.trans h)
theorem witness_DrawTwiceRestores : (15 : Nat) < 16 ∧ (14 : RegIx) ≠ flagReg ∧ (0 : RegIx) ≠ flagReg := by decide
theorem witness_KeySkips : ((State.reset.setReg 1 0).reg 1).toNat = (0 : Fin 16).val ∧
    ((State.reset.setReg 1 15).reg 1).toNat = (15 : Fin 16).val ∧ 16 ≤ ((State.reset.setReg 1 16).reg 1).toNat := by decide
theorem witness_PcAfterEachInstruction : exec (.jp 0xFFF) State.reset = .next (State.reset.setPc 0xFFF) ∧
    exec (.call 0) fullStack = .next (fullStack.raiseFatal .stackOverflow 0x2000 0x1FE) ∧
    exec .ret State.reset = .next (State.reset.raiseFatal .stackUnderflow 0x00EE 0x1FE) := ⟨rfl, rfl, rfl⟩
theorem witness_FlagSideEffects : ∃ t, exec (.shl 1 2) (regs12 0x80 0) = .next t ∧ t.reg flagReg ≠ (regs12 0x80 0).reg flagReg :=
  ⟨_, rfl, by decide⟩
theorem witness_OnlyTheStoresWriteMemory :
    (∃ t, exec .cls State.reset = .next t) ∧ (∀ x, Instr.cls ≠ .ldB x) ∧ ∀ x, Instr.cls ≠ .storeRegs x :=
  ⟨⟨_, rfl⟩, fun _ => by simp, fun _ => by simp⟩
theorem witness_StackDisplayIndexWriters :
    (∃ t, exec (.call 0) State.reset = .next t ∧ t.stack ≠ State.reset.stack) ∧
    (∃ t, exec (.drw 0 0 5) State.reset = .next t ∧ t.fb ≠ State.reset.fb) ∧
    (∃ t, exec (.ldI 0xFFF) State.reset = .next t ∧ t.i ≠ State.reset.i) := by
  refine ⟨⟨_, rfl, by decide⟩, ⟨_, rfl, fun h => ?_⟩, ⟨_, rfl, by decide⟩⟩
  have := congrArg (fun d => Display.isLit d 0 0) h
  revert this
  decide
theorem witness_TimerKeyWaitFaultWriters :
    (∃ t, exec (.ldDTVx 1) (regs12 3 0) = .next t ∧ t.dt ≠ (regs12 3 0).dt) ∧
    (∃ t, exec (.ldSTVx 1) (regs12 3 0) = .next t ∧ t.st ≠ (regs12 3 0).st) ∧
    (∃ t, exec (.ldVxK 1) State.reset = .next t ∧ t.paused ≠ State.reset.paused) ∧
    (∃ t, exec .ret State.reset = .next t ∧ t.fault ≠ State.reset.fault) :=
  ⟨⟨_, rfl, by decide⟩, ⟨_, rfl, by decide⟩, ⟨_, rfl, by decide⟩, ⟨_, rfl, by decide⟩⟩
theorem witness_SoundTimerAndKeysUnread :
    (∃ t, exec (.ldSTVx 15) State.reset = .next t) ∧ (∀ x, Instr.ldSTVx 15 ≠ .skp x) ∧ ∀ x, Instr.ldSTVx 15 ≠ .sknp x :=
  ⟨⟨_, rfl⟩, fun _ => by simp, fun _ => by simp⟩
theorem witness_WaitAndFaultUnread : (∃ t, exec (.ldVxK 15) State.reset = .next t) ∧ State.reset.fault = none := ⟨⟨_, rfl⟩, rfl⟩
/-- A tick that begins and a tick in progress. -/
theorem witness_StepRunsTheDecodedInstruction :
    (State.reset.placeWord 0x1200).readyToFetch = true ∧ decodeWord (State.reset.placeWord 0x1200).fetch = .ok (.jp 0x200) ∧
    (inTick 1 0xF10A).readyToFetch = true ∧ decodeWord (inTick 1 0xF10A).fetch = .ok (.ldVxK 1) := ⟨rfl, rfl, rfl, rfl⟩
theorem witness_TickClosesAfterAnInstruction : (State.reset.awaitKey 1).running = false ∧ State.reset.running = true ∧
    (State.reset.raiseFatal .decodeError 0 0).running = false := ⟨rfl, rfl, rfl⟩
/-- From reset, from a wait and from the fatal state; a legal word, an illegal one, an address outside the word. -/
theorem witness_PlacedWordRunsNext : State.reset.readyToFetch = true ∧ decodeTableWord 16 0x512F = none ∧
    (effAddr 0x202 ≠ effAddr State.reset.pc ∧ effAddr 0x202 ≠ effAddr (State.reset.pc + 1)) ∧ State.reset.mem.wf ∧ decodeTableWord 16 0x1FFF = some (.jp 0xFFF) ∧
    look (one 0x1FFF State.reset) (·.pc) = some 0xFFF ∧ look (one 0x1FFF (State.reset.awaitKey 1)) (·.pc) = some 0xFFF ∧
    look (one 0x1FFF (State.reset.raiseFatal .decodeError 0 0)) (·.pc) = some 0xFFF :=
  ⟨rfl, rfl, by decide, by decide, rfl, rfl, rfl, rfl⟩
theorem witness_IllegalWordIsFatal : State.reset.readyToFetch = true ∧ decodeWord State.reset.fetch = .error .family0 ∧
    (inTick 9 0x512F).readyToFetch = true ∧ decodeWord (inTick 9 0x512F).fetch = .error .family5 := ⟨rfl, rfl, rfl, rfl⟩
theorem witness_FatalIsPrecise : (inTick 9 0x00EE).fault = none ∧
    ∃ t, step (inTick 9 0x00EE) = .next t ∧ t.fault = some ⟨.stackUnderflow, 0x00EE, 0x200⟩ := ⟨rfl, _, rfl, rfl⟩
theorem witness_FatalStateIsTerminal :
    (let s := { State.reset.raiseFatal .decodeError 0 0x202 with host := [.tick, .keyPress 16, .keyRelease 0] }
     s.left = 0 ∧ s.fault = some ⟨.decodeError, 0, 0x202⟩ ∧
     ∀ e ∈ s.host, e = .tick ∨ (∃ k, e = .keyPress k) ∨ ∃ k, e = .keyRelease k) :=
  ⟨rfl, rfl, fun e h => by
    rcases List.mem_cons.1 h with rfl | h
    · exact .inl rfl
    · rcases List.mem_cons.1 h with rfl | h
      · exact .inr (.inl ⟨_, rfl⟩)
      · rcases List.mem_singleton.1 h with rfl
        exact .inr (.inr ⟨_, rfl⟩)⟩
theorem witness_StepsOfATickAreTheTick : State.reset.left = 0 ∧ State.reset.fault = none ∧ State.reset.host = [] ∧
    ({ State.reset with host := [.tick, .reset] } : State).host = .tick :: [.reset] := ⟨rfl, rfl, rfl, rfl⟩
theorem witness_TickWithoutSteps :
    State.reset.left = 0 ∧ State.reset.tickNext = true ∧ State.reset.fault = none ∧ State.reset.paused = false ∧
    (State.reset.awaitKey 0).tickNext = true ∧ (State.reset.awaitKey 0).paused = true ∧
    ({ State.reset with params := { Config.defaultParams with ipf := 0 } } : State).params.ipf = 0 :=
  ⟨rfl, rfl, rfl, rfl, rfl, rfl, rfl⟩
theorem witness_AwaitKeyEndsTheTick : (inTick 9 0xFF0A).readyToFetch = true ∧ decodeWord (inTick 9 0xFF0A).fetch = .ok (.ldVxK 15) :=
  ⟨rfl, rfl⟩
/-- Inside a tick; between ticks with an empty script and with one event; a key event that a step delivers to a running CORE. -/
theorem witness_NoTransactionInsideATick :
    (0 < (inTick 1 0x1200).left ∧ ∃ t, step (inTick 1 0x1200) = .next t) ∧
    (State.reset.left = 0 ∧ State.reset.host = [] ∧ State.reset.fault = none) ∧
    (let s := { State.reset with host := [.keyPress 15] }
     s.left = 0 ∧ s.host = .keyPress 15 :: [] ∧ look (step s) (·.keys[15]) = some true) :=
  ⟨⟨by decide, _, rfl⟩, ⟨rfl, rfl, rfl⟩, rfl, rfl, rfl⟩
theorem witness_KeyPressCompletesTheWait : State.reset.fault = none ∧ State.reset.waitReg = none ∧
    (State.reset.awaitKey 15).waitReg = some 15 ∧ (State.reset.raiseFatal .decodeError 0 0).fault ≠ none ∧ 16 ≤ 16 ∧
    (0 : Fin 16) ≠ 15 := by decide
theorem witness_KeyReleaseClearsTheKey : State.reset.fault = none ∧ (State.reset.raiseFatal .decodeError 0 0).fault ≠ none ∧
    16 ≤ 16 ∧ (0 : Fin 16) ≠ 15 := by decide
theorem witness_LoadPlacesTheImage : State.reset.mem.wf ∧ State.reset.loadable = true ∧ (List.replicate 3584 (0x12 : Byte)).length ≤ 3584 ∧
    3584 < (List.replicate 3585 (0x12 : Byte)).length ∧ (inTick 1 0x1200).loadable = false :=
  ⟨by decide, rfl, le_of_eq List.length_replicate, lt_of_lt_of_eq (by omega) List.length_replicate.symm, rfl⟩
/-- A state inside a tick, its stack full to a finite depth, that satisfies the invariant and takes a step (a fatal one). -/
theorem witness_StepKeepsInvariant :
    (let s := { fullStack.placeWord 0x2ABC with left := 9, loadable := false }
     s.Inv ∧ ∃ t, step s = .next t ∧ t.fault = some ⟨.stackOverflow, 0x2ABC, 0x200⟩) :=
  ⟨{ memWf := by decide
     waitPaired := rfl
     stackFits := fun n h => by cases h; decide
     faultTruthful := fun r h => by cases h
     leftBound := fun _ => ⟨by decide, rfl⟩
     loadFresh := fun h => by cases h }, _, rfl, rfl⟩
theorem witness_FinishedProgramStaysFinished : (inTick 1 0x1200).Finished ∧ (inTick 1 0x1200).readyToFetch = true :=
  ⟨⟨rfl, 0x200, rfl, rfl⟩, rfl⟩

end Sys2Proof.Tests
end

section
/-! PROOFS. What each instruction can write, and what none of them reads: the layer under the statements of spec/10_state.md. -/

namespace Sys2Proof.Machine

/-! ## Fields the shared operations leave alone -/

@[simp] theorem writeBoth_pc (x : RegIx) (r f : Byte) (s : State) : (writeBoth x r f s).pc = s.pc := by
  rw [writeBoth_eq]

@[simp] theorem drawRows_pc (base : Word) (x0 y0 n : Nat) (s : State) : (drawRows base x0 y0 n s).pc = s.pc := by
  rw [drawRows_eq]

@[simp] theorem storeBlock_pc (n : Nat) (s : State) : (storeBlock n s).pc = s.pc := by
  rw [storeBlock_eq]

@[simp] theorem loadBlock_pc (n : Nat) (s : State) : (loadBlock n s).pc = s.pc := by
  rw [loadBlock_eq]

/-- A skip leaves `PC` or adds a further 2 (R100). -/
theorem skipIf_pc (c : Bool) (s : State) : (skipIf c s).pc = s.pc ∨ (skipIf c s).pc = s.pc + 2 := by
  cases c
  · exact .inl rfl
  · exact .inr rfl

/-! ## The call stack -/

/-- `RET` is the fatal entry on an empty stack, and a pop into `PC` otherwise (R101). -/
theorem exec_ret_cases {s t : State} (h : exec .ret s = .next t) :
    (s.stack = [] ∧ t = s.raiseFatal .stackUnderflow (encode .ret) s.ownAddr) ∨
    (∃ top rest, s.stack = top :: rest ∧ t = (s.setStack rest).setPc top) := by
  simp only [exec, execRet] at h
  cases hs : s.stack with
  | nil =>
    rw [hs] at h
    cases h
    exact .inl ⟨rfl, rfl⟩
  | cons top rest =>
    rw [hs] at h
    cases h
    exact .inr ⟨top, rest, rfl, rfl⟩

/-- `CALL` is the fatal entry on a full stack, and a push and a jump otherwise (R103). -/
theorem exec_call_cases {nnn : Addr12} {s t : State} (h : exec (.call nnn) s = .next t) :
    (s.stackFull = true ∧ t = s.raiseFatal .stackOverflow (encode (.call nnn)) s.ownAddr) ∨
    (s.stackFull = false ∧ t = (s.push s.pc).setPc (zext16 nnn)) := by
  simp only [exec, execCall] at h
  cases hf : s.stackFull with
  | true =>
    rw [hf] at h
    cases h
    exact .inl ⟨rfl, rfl⟩
  | false =>
    rw [hf] at h
    cases h
    exact .inr ⟨rfl, rfl⟩

/-! ## What each instruction can write -/

/-- `Footprint s i t`: the instruction `i` may take `s` to `t`, as far as the fields it may write are concerned. The fields a
constructor does not name are those of `s`; memory, the call stack, the latch and the wait are followed as far as the invariant needs. -/
inductive Footprint (s : State) : Instr → State → Prop where
  | registers (i : Instr) (v : Vector Byte 16) (draws : Nat) : Footprint s i { s with v := v, draws := draws }
  | transfer (i : Instr) (pc : Word) : Footprint s i { s with pc := pc }
  | digits (x : RegIx) (mem : Memory) (hwf : s.mem.wf → mem.wf) : Footprint s (.ldB x) { s with mem := mem }
  | blockStore (x : RegIx) (mem : Memory) (hwf : s.mem.wf → mem.wf) : Footprint s (.storeRegs x) { s with mem := mem }
  | clear (fb : Display) : Footprint s .cls { s with fb := fb }
  | draw (x y : RegIx) (n : Nat) (v : Vector Byte 16) (fb : Display) : Footprint s (.drw x y n) { s with v := v, fb := fb }
  | pop (top : Word) (rest : List Word) (hs : s.stack = top :: rest) : Footprint s .ret ((s.setStack rest).setPc top)
  | underflow (hs : s.stack = []) : Footprint s .ret (s.raiseFatal .stackUnderflow (encode .ret) s.ownAddr)
  | push (nnn : Addr12) (hroom : s.stackFull = false) : Footprint s (.call nnn) ((s.push s.pc).setPc (zext16 nnn))
  | overflow (nnn : Addr12) (hfull : s.stackFull = true) :
      Footprint s (.call nnn) (s.raiseFatal .stackOverflow (encode (.call nnn)) s.ownAddr)
  | loadIndex (nnn : Addr12) (w : Word) : Footprint s (.ldI nnn) (s.setI w)
  | addIndex (x : RegIx) (w : Word) : Footprint s (.addI x) (s.setI w)
  | glyphIndex (x : RegIx) (w : Word) : Footprint s (.ldF x) (s.setI w)
  | await (x : RegIx) : Footprint s (.ldVxK x) (s.awaitKey x)
  | delayTimer (x : RegIx) (b : Byte) : Footprint s (.ldDTVx x) (s.setDT b)
  | soundTimer (x : RegIx) (b : Byte) : Footprint s (.ldSTVx x) (s.setST b)

/-- `WriteBoth` writes registers only. -/
theorem writeBoth_footprint (i : Instr) (x : RegIx) (r f : Byte) (s : State) : Footprint s i (writeBoth x r f s) := by
  rw [writeBoth_eq]
  exact .registers i _ s.draws

/-- A skip writes `PC` only. -/
theorem skipIf_footprint (i : Instr) (c : Bool) (s : State) : Footprint s i (skipIf c s) := by
  rw [skipIf_eq]
  exact .transfer i _

/-- Every instruction keeps to its footprint. -/
theorem exec_footprint {i : Instr} {s t : State} (h : exec i s = .next t) : Footprint s i t := by
  cases i with
  | cls => cases h; exact .clear _
  | ret =>
    obtain ⟨hs, rfl⟩ | ⟨top, rest, hs, rfl⟩ := exec_ret_cases h
    · exact .underflow hs
    · exact .pop top rest hs
  | call nnn =>
    obtain ⟨hfull, rfl⟩ | ⟨hroom, rfl⟩ := exec_call_cases h
    · exact .overflow nnn hfull
    · exact .push nnn hroom
  | jp nnn | jpV0 nnn => cases h; exact .transfer _ _
  | seImm x nn | sneImm x nn | seReg x y | sneReg x y | skp x | sknp x => cases h; exact skipIf_footprint _ _ s
  | ldImm x nn | addImm x nn | ldReg x y | orReg x y | andReg x y | xorReg x y | ldVxDT x => cases h; exact .registers _ _ s.draws
  | rnd x nn => cases h; exact .registers _ _ _
  | addReg x y | subReg x y | shr x y | subnReg x y | shl x y => cases h; exact writeBoth_footprint _ _ _ _ s
  | ldI nnn => cases h; exact .loadIndex _ _
  | addI x => cases h; exact .addIndex _ _
  | ldF x => cases h; exact .glyphIndex _ _
  | drw x y n =>
    cases h
    rw [drawRows_eq]
    exact .draw x y n _ _
  | ldVxK x => cases h; exact .await x
  | ldDTVx x => cases h; exact .delayTimer x _
  | ldSTVx x => cases h; exact .soundTimer x _
  | ldB x =>
    cases h
    exact .digits x _ fun hwf => State.memWrite_wf (State.memWrite_wf (State.memWrite_wf hwf _ _) _ _) _ _
  | storeRegs x =>
    cases h
    rw [storeBlock_eq]
    exact .blockStore x _ storeBlock_wf
  | loadRegs x =>
    cases h
    rw [loadBlock_eq]
    exact .registers _ _ s.draws

/-- No instruction writes the keys, the model arguments or the fields of the driver. -/
theorem exec_keeps_driver_fields {i : Instr} {s t : State} (h : exec i s = .next t) :
    t.keys = s.keys ∧ t.params = s.params ∧ t.left = s.left ∧ t.host = s.host ∧ t.loadable = s.loadable := by
  cases exec_footprint h <;> exact ⟨rfl, rfl, rfl, rfl, rfl⟩

/-! ## Who writes what -/

/-- Settles O40: the footprints that name the stack, the display or `I` are those of the instructions listed. -/
theorem stackDisplayIndexWriters : Obligations.StackDisplayIndexWriters := by
  unfold Obligations.StackDisplayIndexWriters
  intro i s t h
  cases exec_footprint h with
  | pop | underflow | push nnn | overflow nnn => simp
  | clear | draw x y n => simp
  | loadIndex nnn | addIndex x | glyphIndex x => simp
  | registers | transfer | digits | blockStore | await | delayTimer | soundTimer => simp

/-- Settles O41: no footprint names the keys or the arguments, and those that name a timer, the wait or the latch are those of the
instructions listed. -/
theorem timerKeyWaitFaultWriters : Obligations.TimerKeyWaitFaultWriters := by
  unfold Obligations.TimerKeyWaitFaultWriters
  intro i s t h
  cases exec_footprint h with
  | underflow | overflow nnn => simp
  | await x => simp
  | delayTimer x | soundTimer x => simp
  | registers | transfer | digits | blockStore | clear | draw | pop | push | loadIndex | addIndex | glyphIndex => simp

/-! ## `PC` and `VF` -/

/-- Settles O37: transfers by their cases, skips by `skipIf_pc`; every other instruction leaves `PC` alone. -/
theorem pcAfterEachInstruction : Obligations.PcAfterEachInstruction := by
  unfold Obligations.PcAfterEachInstruction
  intro i s t h
  cases i with
  | jp nnn | jpV0 nnn => cases h; rfl
  | ret =>
    obtain ⟨hs, rfl⟩ | ⟨top, rest, hs, rfl⟩ := exec_ret_cases h <;> simp [hs]
  | call nnn =>
    obtain ⟨hf, rfl⟩ | ⟨hf, rfl⟩ := exec_call_cases h <;> simp [hf]
  | seImm x nn | sneImm x nn | seReg x y | sneReg x y | skp x | sknp x => cases h; exact skipIf_pc _ s
  | addReg x y | subReg x y | shr x y | subnReg x y | shl x y => cases h; exact writeBoth_pc _ _ _ s
  | drw x y n => cases h; exact drawRows_pc _ _ _ _ _
  | storeRegs x => cases h; exact storeBlock_pc _ s
  | loadRegs x => cases h; exact loadBlock_pc _ s
  | cls | ldImm x nn | addImm x nn | ldReg x y | orReg x y | andReg x y | xorReg x y | rnd x nn | ldI nnn | ldVxDT x | ldVxK x
  | ldDTVx x | ldSTVx x | addI x | ldF x | ldB x => cases h; rfl

/-- A write of `V[x]` that changes `VF` has `x = F`. -/
theorem eq_flagReg_of_setReg_flag_ne {s : State} {x : RegIx} {b : Byte} (h : (s.setReg x b).reg flagReg ≠ s.reg flagReg) :
    x = flagReg := by
  by_contra hx
  exact h (State.reg_setReg_ne s (Ne.symm hx) b)

/-- The block load of `LD Vx, [I]` stops below `x`, so it never loads `VF` (R156). -/
theorem loadBlock_flag (x : RegIx) (s : State) : (loadBlock x.val s).reg flagReg = s.reg flagReg := by
  rw [loadBlock_reg (by omega), if_neg]
  exact Nat.not_lt.mpr (Nat.le_of_lt_succ x.isLt)

/-- Settles O38: the six flag writers and the named destinations are listed; every other instruction writes no register, or registers
below `VF`. -/
theorem flagSideEffects : Obligations.FlagSideEffects := by
  unfold Obligations.FlagSideEffects
  intro i s t h hne
  cases i with
  | addReg x y | subReg x y | shr x y | subnReg x y | shl x y => exact .inl ⟨x, y, by simp⟩
  | drw x y n => exact .inr (.inl ⟨x, y, n, rfl⟩)
  | ldImm x nn | addImm x nn | rnd x nn =>
    cases h
    obtain rfl := eq_flagReg_of_setReg_flag_ne hne
    exact .inr (.inr (.inl ⟨nn, by simp⟩))
  | ldReg x y | orReg x y | andReg x y | xorReg x y =>
    cases h
    obtain rfl := eq_flagReg_of_setReg_flag_ne hne
    exact .inr (.inr (.inr (.inl ⟨y, by simp⟩)))
  | ldVxDT x =>
    cases h
    obtain rfl := eq_flagReg_of_setReg_flag_ne hne
    exact .inr (.inr (.inr (.inr rfl)))
  | loadRegs x => cases h; exact absurd (loadBlock_flag x s) hne
  | storeRegs x => cases h; exact absurd (storeBlock_reg _ s _) hne
  | ret => obtain ⟨-, rfl⟩ | ⟨top, rest, -, rfl⟩ := exec_ret_cases h <;> exact absurd rfl hne
  | call nnn => obtain ⟨-, rfl⟩ | ⟨-, rfl⟩ := exec_call_cases h <;> exact absurd rfl hne
  | seImm x nn | sneImm x nn | seReg x y | sneReg x y | skp x | sknp x =>
    cases h
    rw [skipIf_eq] at hne
    exact absurd rfl hne
  | cls | jp nnn | jpV0 nnn | ldI nnn | ldVxK x | ldDTVx x | ldSTVx x | addI x | ldF x | ldB x =>
    cases h; exact absurd rfl hne

end Sys2Proof.Machine
end

section
/-! PROOFS. A change of the state that no instruction notices goes through every instruction: the noninterference statements. -/

namespace Sys2Proof.Machine

/-- `g` changes nothing that an instruction other than a key skip reads, and commutes with every named write but those of the sound
timer and of the wait. -/
structure Unseen (g : State → State) : Prop where
  reg : ∀ s r, (g s).reg r = s.reg r
  memRead : ∀ s a, (g s).memRead a = s.memRead a
  i : ∀ s, (g s).i = s.i
  pc : ∀ s, (g s).pc = s.pc
  stack : ∀ s, (g s).stack = s.stack
  dt : ∀ s, (g s).dt = s.dt
  fb : ∀ s, (g s).fb = s.fb
  params : ∀ s, (g s).params = s.params
  draws : ∀ s, (g s).draws = s.draws
  setReg : ∀ s x b, (g s).setReg x b = g (s.setReg x b)
  memWrite : ∀ s a b, (g s).memWrite a b = g (s.memWrite a b)
  setI : ∀ s w, (g s).setI w = g (s.setI w)
  setPc : ∀ s w, (g s).setPc w = g (s.setPc w)
  setStack : ∀ s l, (g s).setStack l = g (s.setStack l)
  setDT : ∀ s b, (g s).setDT b = g (s.setDT b)
  setFb : ∀ s d, (g s).setFb d = g (s.setFb d)
  tookDraw : ∀ s, (g s).tookDraw = g s.tookDraw
  raiseFatal : ∀ s c w a, (g s).raiseFatal c w a = g (s.raiseFatal c w a)

namespace Unseen

variable {g : State → State} (hg : Unseen g) (s : State)
include hg

/-! ## The shared operations -/

theorem writeBoth (x : RegIx) (r f : Byte) : writeBoth x r f (g s) = g (writeBoth x r f s) := by
  unfold Machine.writeBoth
  rw [hg.params]
  cases s.params.vfWriteOrder <;> simp only [hg.setReg]

theorem skipIf (c : Bool) : skipIf c (g s) = g (skipIf c s) := by
  rw [skipIf_eq, skipIf_eq, hg.pc, hg.setPc]

theorem stackFull : (g s).stackFull = s.stackFull := by
  simp only [State.stackFull, hg.params, hg.stack]

theorem draw : (g s).draw = s.draw := by
  simp only [State.draw, hg.draws]

theorem storeBlock (n : Nat) : storeBlock n (g s) = g (storeBlock n s) := by
  induction n with
  | zero => rfl
  | succ n ih => rw [storeBlock_succ, storeBlock_succ, ih, hg.i, hg.reg, hg.memWrite]

theorem loadBlock (n : Nat) : loadBlock n (g s) = g (loadBlock n s) := by
  induction n with
  | zero => rfl
  | succ n ih => rw [loadBlock_succ, loadBlock_succ, ih, hg.i, hg.memRead, hg.setReg]

theorem plot (cx cy : Nat) : plot cx cy (g s) = g (plot cx cy s) := by
  simp only [Machine.plot, hg.fb, hg.setFb, hg.setReg, apply_ite g]

theorem drawCols (row : Byte) (x0 cy m : Nat) : drawCols row x0 cy m (g s) = g (drawCols row x0 cy m s) := by
  induction m with
  | zero => rfl
  | succ m ih => rw [drawCols_succ, drawCols_succ, ih, hg.plot, apply_ite g]

theorem drawRows (base : Word) (x0 y0 n : Nat) : drawRows base x0 y0 n (g s) = g (drawRows base x0 y0 n s) := by
  induction n with
  | zero => rfl
  | succ n ih =>
    rw [drawRows_succ, drawRows_succ, ih, hg.memRead, drawRow_eq_drawCols, drawRow_eq_drawCols, hg.drawCols]

/-! ## The instructions -/

variable {s} {t : State}

theorem exec_ret (h : exec .ret s = .next t) : exec .ret (g s) = .next (g t) := by
  simp only [exec, execRet, hg.stack, State.ownAddr, hg.pc, hg.raiseFatal, hg.setStack, hg.setPc] at h ⊢
  cases hs : s.stack <;> rw [hs] at h <;> cases h <;> rfl

theorem exec_call {nnn : Addr12} (h : exec (.call nnn) s = .next t) : exec (.call nnn) (g s) = .next (g t) := by
  simp only [exec, execCall, hg.stackFull, State.ownAddr, State.push, hg.pc, hg.stack, hg.raiseFatal, hg.setStack, hg.setPc] at h ⊢
  cases hf : s.stackFull <;> rw [hf] at h <;> cases h <;> rfl

/-- A change no instruction notices goes through each instruction: the key skips need the keys kept, and the writers of the wait and of
the sound timer need their write to commute with the change. -/
theorem exec {i : Instr} (hkeys : ∀ x, i = .skp x ∨ i = .sknp x → (g s).keys = s.keys)
    (hwait : ∀ x, i = .ldVxK x → (g s).awaitKey x = g (s.awaitKey x))
    (hst : ∀ x, i = .ldSTVx x → ∀ b, (g s).setST b = g (s.setST b))
    (h : exec i s = .next t) : exec i (g s) = .next (g t) := by
  cases i with
  | ret => exact hg.exec_ret h
  | call nnn => exact hg.exec_call h
  | jp nnn | jpV0 nnn =>
    cases h
    simp only [Machine.exec, execJp, execJpV0, hg.reg, hg.setPc]
  | seImm x nn | sneImm x nn | seReg x y | sneReg x y =>
    cases h
    simp only [Machine.exec, execSeImm, execSneImm, execSeReg, execSneReg, hg.reg, hg.skipIf]
  | skp x | sknp x =>
    cases h
    have hk := hkeys x (by simp)
    simp only [Machine.exec, execSkp, execSknp, State.isPressed, hk, hg.reg, hg.skipIf]
  | ldImm x nn | addImm x nn | ldReg x y | orReg x y | andReg x y | xorReg x y | ldVxDT x =>
    cases h
    simp only [Machine.exec, execLdImm, execAddImm, execLdReg, execOr, execAnd, execXor, execLdVxDT, hg.reg, hg.dt, hg.setReg]
  | addReg x y | subReg x y | shr x y | subnReg x y | shl x y =>
    cases h
    simp only [Machine.exec, execAddReg, execSub, execShr, execSubn, execShl, hg.reg, hg.params, hg.writeBoth]
  | rnd x nn =>
    cases h
    simp only [Machine.exec, execRnd, hg.draw, hg.setReg, hg.tookDraw]
  | ldI nnn | addI x | ldF x =>
    cases h
    simp only [Machine.exec, execLdI, execAddI, execLdF, hg.reg, hg.i, hg.setI]
  | ldB x =>
    cases h
    simp only [Machine.exec, execLdB, hg.reg, hg.i, hg.memWrite]
  | storeRegs x =>
    cases h
    simp only [Machine.exec, execStoreRegs, hg.storeBlock]
  | loadRegs x =>
    cases h
    simp only [Machine.exec, execLoadRegs, hg.loadBlock]
  | cls =>
    cases h
    simp only [Machine.exec, execCls, hg.setFb]
  | drw x y n =>
    cases h
    simp only [Machine.exec, execDrw, hg.reg, hg.i, hg.setReg, hg.drawRows]
  | ldDTVx x =>
    cases h
    simp only [Machine.exec, execLdDTVx, hg.reg, hg.setDT]
  | ldVxK x =>
    cases h
    simp only [Machine.exec, execLdVxK, hwait x rfl]
  | ldSTVx x =>
    cases h
    simp only [Machine.exec, execLdSTVx, hg.reg, hst x rfl]

end Unseen

/-! ## The fields no instruction reads -/

theorem unseen_soundTimer (b : Byte) : Unseen (fun s => { s with st := b }) := by
  constructor <;> intros <;> rfl

theorem unseen_keys (k : Vector Bool Config.nKeys) : Unseen (fun s => { s with keys := k }) := by
  constructor <;> intros <;> rfl

theorem unseen_wait (p : Bool) (q : Option RegIx) : Unseen (fun s => { s with paused := p, waitReg := q }) := by
  constructor <;> intros <;> rfl

/-- A latch put under the one the state has: an instruction that raises a fatal overwrites both. -/
theorem unseen_fault (f : Option FatalRecord) : Unseen (fun s => { s with fault := s.fault.or f }) := by
  constructor <;> intros <;> rfl

/-- Settles O42: both changes are unseen, the sound timer but by the write that overwrites it, the keys but by the key skips. -/
theorem soundTimerAndKeysUnread : Obligations.SoundTimerAndKeysUnread := by
  unfold Obligations.SoundTimerAndKeysUnread
  intro i s t h
  refine ⟨fun b => ?_, fun k hskp hsknp => ?_⟩
  · split
    · cases h
      rfl
    · next hne => exact (unseen_soundTimer b).exec (fun _ _ => rfl) (fun _ _ => rfl) (fun x hx => (hne x hx).elim) h
  · exact (unseen_keys k).exec (fun x hx => (hx.elim (hskp x) (hsknp x)).elim) (fun _ _ => rfl) (fun _ _ _ => rfl) h

/-- Settles O43: both changes are unseen, the wait but by the write that overwrites it. -/
theorem waitAndFaultUnread : Obligations.WaitAndFaultUnread := by
  unfold Obligations.WaitAndFaultUnread
  intro i s t h
  refine ⟨fun p q => ?_, fun hs f => ?_⟩
  · split
    · cases h
      rfl
    · next hne => exact (unseen_wait p q).exec (fun _ _ => rfl) (fun x hx => (hne x hx).elim) (fun _ _ _ => rfl) h
  · have hf := (unseen_fault f).exec (fun _ _ => rfl) (fun _ _ => rfl) (fun _ _ _ => rfl) h
    simpa only [hs, Option.none_or] using hf

end Sys2Proof.Machine
end

section
/-! PROOFS. The invariant: what an instruction, the close of its step, and each transaction keep. -/

namespace Sys2Proof.Machine

/-- The part of the invariant that holds between an instruction and the close of its step: the clauses about the CORE, without the
position in the tick and the time for `Load`. -/
structure State.CoreInv (s : State) : Prop where
  memWf : s.mem.wf
  waitPaired : s.paused = s.waitReg.isSome
  stackFits : ∀ n, s.params.stackDepth = some n → s.stack.length ≤ n
  faultTruthful : ∀ r, s.fault = some r → r.Truthful s

theorem State.Inv.core {s : State} (h : s.Inv) : s.CoreInv := ⟨h.memWf, h.waitPaired, h.stackFits, h.faultTruthful⟩

/-- The invariant does not speak of the host's script. -/
theorem State.Inv.withHost {s : State} (h : s.Inv) (l : List HostEvent) : ({ s with host := l } : State).Inv :=
  ⟨h.memWf, h.waitPaired, h.stackFits, h.faultTruthful, h.leftBound, h.loadFresh⟩

/-- Between ticks with no `Load` to come, the invariant is its part about the CORE. -/
theorem State.Inv.between_ticks {s : State} (h : s.CoreInv) (hl : s.left = 0) (hload : s.loadable = false) : s.Inv where
  memWf := h.memWf
  waitPaired := h.waitPaired
  stackFits := h.stackFits
  faultTruthful := h.faultTruthful
  leftBound hpos := absurd hl (Nat.ne_of_gt hpos)
  loadFresh ht := by simp [hload] at ht

/-! ## One instruction -/

theorem stackFull_iff (s : State) : s.stackFull = true ↔ ∃ n, s.params.stackDepth = some n ∧ n ≤ s.stack.length := by
  unfold State.stackFull
  cases s.params.stackDepth <;> simp

/-- The address recorded by an instruction's own fatal is 2 below `PC`. -/
theorem pc_eq_ownAddr_add (s : State) : s.pc = s.ownAddr + 2 := by
  simp [State.ownAddr]

variable {s t : State}

/-- A call stack that fits and is full holds exactly `STACK_DEPTH` entries. -/
theorem State.CoreInv.depth_of_full (hs : s.CoreInv) (hfull : s.stackFull = true) : s.params.stackDepth = some s.stack.length := by
  obtain ⟨n, hn, hle⟩ := (stackFull_iff s).mp hfull
  rw [hn, Nat.le_antisymm (hs.stackFits n hn) hle]

/-- A call stack that is not full has room for one entry more. -/
theorem room_of_not_full (hroom : s.stackFull = false) {n : Nat} (hn : s.params.stackDepth = some n) : s.stack.length + 1 ≤ n := by
  by_contra hlt
  have hfull : s.stackFull = true := (stackFull_iff s).mpr ⟨n, hn, by omega⟩
  simp [hroom] at hfull

/-- Without a record there is nothing to be truthful about. -/
theorem truthful_of_no_fault (hnone : s.fault = none) : ∀ r, s.fault = some r → r.Truthful s := by
  simp [hnone]

/-- An instruction run without a fault recorded keeps the invariant of the CORE; the two fatals record what is true. -/
theorem exec_keeps_coreInv {i : Instr} (hs : s.CoreInv) (hnone : s.fault = none) (h : exec i s = .next t) : t.CoreInv := by
  have ⟨hmem, hwait, hfits, _⟩ := hs
  cases exec_footprint h with
  | digits x mem hwf | blockStore x mem hwf => exact ⟨hwf hmem, hwait, hfits, truthful_of_no_fault hnone⟩
  | await x => exact ⟨hmem, rfl, hfits, truthful_of_no_fault hnone⟩
  | pop top rest hst =>
    have hrest : ∀ n, s.params.stackDepth = some n → rest.length ≤ n := fun n hn => by
      have hle := hfits n hn
      rw [hst, List.length_cons] at hle
      omega
    exact ⟨hmem, hwait, hrest, truthful_of_no_fault hnone⟩
  | push nnn hroom => exact ⟨hmem, hwait, fun _ => room_of_not_full hroom, truthful_of_no_fault hnone⟩
  | underflow hst =>
    refine ⟨hmem, hwait, hfits, fun r hr => ?_⟩
    cases hr
    exact ⟨pc_eq_ownAddr_add s, rfl, hst⟩
  | overflow nnn hfull =>
    refine ⟨hmem, hwait, hfits, fun r hr => ?_⟩
    cases hr
    exact ⟨pc_eq_ownAddr_add s, ⟨nnn, rfl⟩, hs.depth_of_full hfull⟩
  | registers | transfer | clear | draw | loadIndex | addIndex | glyphIndex | delayTimer | soundTimer =>
    exact ⟨hmem, hwait, hfits, truthful_of_no_fault hnone⟩

/-- A fetched instruction or an illegal word (R70, R213): the invariant of the CORE, the arguments and the time for `Load` are kept. -/
theorem stepInstr_keeps_coreInv (hs : s.CoreInv) (hnone : s.fault = none) (h : stepInstr s = .next t) :
    t.CoreInv ∧ t.params = s.params ∧ t.loadable = s.loadable := by
  obtain ⟨hmem, hwait, hfits, -⟩ := hs
  unfold stepInstr at h
  split at h
  · have hadv : s.advancePc.CoreInv := ⟨hmem, hwait, hfits, truthful_of_no_fault hnone⟩
    obtain ⟨-, hparams, -, -, hload⟩ := exec_keeps_driver_fields h
    exact ⟨exec_keeps_coreInv hadv hnone h, hparams, hload⟩
  · next e he =>
    cases h
    refine ⟨⟨hmem, hwait, hfits, fun r hr => ?_⟩, rfl, rfl⟩
    cases hr
    exact ⟨rfl, e, he⟩

/-! ## The tick -/

/-- The close of a step gives the whole invariant back (R225, R226). -/
theorem closeStep_inv {k : Nat} (hs : s.CoreInv) (hload : s.loadable = false) (hk : k < s.params.ipf) : (closeStep k s).Inv := by
  obtain ⟨hmem, hwait, hfits, htruth⟩ := hs
  cases hr : s.running with
  | false =>
    rw [closeStep_stopped hr]
    exact .between_ticks ⟨hmem, hwait, hfits, htruth⟩ rfl hload
  | true =>
    cases k with
    | zero =>
      rw [closeStep_last hr]
      exact .between_ticks ⟨hmem, hwait, hfits, htruth⟩ rfl hload
    | succ n =>
      rw [closeStep_more hr]
      exact ⟨hmem, hwait, hfits, htruth, fun _ => ⟨hk, hr⟩, fun hl => by simp [hload] at hl⟩

theorem quantumStep_keeps_inv {k : Nat} (hs : s.CoreInv) (hnone : s.fault = none) (hload : s.loadable = false) (hk : k < s.params.ipf)
    (h : quantumStep k s = .next t) : t.Inv := by
  obtain ⟨u, hu, hclose⟩ := andThen_eq_next h
  obtain ⟨hcore, hparams, hl⟩ := stepInstr_keeps_coreInv hs hnone hu
  cases hclose
  exact closeStep_inv hcore (hl.trans hload) (hparams ▸ hk)

theorem startTick_keeps_inv (hs : s.Inv) (hleft : s.left = 0) (h : startTick s = .next t) : t.Inv := by
  obtain ⟨hmem, hwait, hfits, htruth⟩ := hs.core
  obtain ⟨-, he⟩ | ⟨-, -, he⟩ | ⟨-, -, -, he⟩ | ⟨k, hnone, -, hipf, he⟩ := startTick_cases s <;> rw [he] at h
  · cases h
    exact hs
  · cases h
    exact .between_ticks ⟨hmem, hwait, hfits, htruth⟩ hleft rfl
  · cases h
    exact .between_ticks ⟨hmem, hwait, hfits, htruth⟩ hleft rfl
  · have hk : k < s.params.ipf := hipf ▸ k.lt_succ_self
    exact quantumStep_keeps_inv (s := { s with loadable := false }) ⟨hmem, hwait, hfits, htruth⟩ hnone rfl hk h

/-! ## The other transactions -/

/-- `Reset` gives the invariant from any state (R250). -/
theorem resetCore_inv (s : State) : (resetCore s).Inv where
  memWf := Memory.wf_nil
  waitPaired := rfl
  stackFits n _ := n.zero_le
  faultTruthful := truthful_of_no_fault rfl
  leftBound hpos := absurd hpos (Nat.lt_irrefl 0)
  loadFresh _ := ⟨rfl, rfl, rfl⟩

theorem load_keeps_inv {image : List Byte} (hs : s.Inv) (hleft : s.left = 0) (h : load image s = .next t) : t.Inv := by
  obtain ⟨-, -, rfl⟩ := load_eq_next h
  have hmem := placeImage_wf Config.progBase image hs.memWf
  rw [placeImage_eq]
  exact .between_ticks ⟨hmem, hs.waitPaired, hs.stackFits, hs.faultTruthful⟩ hleft rfl

/-- The invariant does not speak of the keys. -/
theorem State.Inv.setKey (hs : s.Inv) (k : Fin 16) (b : Bool) : (s.setKey k b).Inv :=
  ⟨hs.memWf, hs.waitPaired, hs.stackFits, hs.faultTruthful, hs.leftBound, hs.loadFresh⟩

/-- The end of a wait clears `PAUSED` and `WAITREG` together (R30, R221). -/
theorem completeWait_keeps_inv {k : Fin 16} (hs : s.Inv) (hnone : s.fault = none) : (completeWait k s).Inv := by
  cases hw : s.waitReg with
  | none => rwa [completeWait_none hw]
  | some r =>
    rw [completeWait_some hw]
    have hrun : ((s.setReg r (BitVec.ofNat 8 k.val)).resume).running = true := (State.running_iff _).mpr ⟨hnone, rfl⟩
    exact
      { memWf := hs.memWf
        waitPaired := rfl
        stackFits := hs.stackFits
        faultTruthful := truthful_of_no_fault hnone
        leftBound := fun hpos => ⟨(hs.leftBound hpos).1, hrun⟩
        loadFresh := fun hl => ⟨(hs.loadFresh hl).1, hrun, (hs.loadFresh hl).2.2⟩ }

theorem keyPress_keeps_inv (hs : s.Inv) (k : Nat) : (keyPress k s).Inv := by
  unfold keyPress
  split
  · exact hs
  · next hf =>
    split
    · exact completeWait_keeps_inv (hs.setKey _ _) (by simpa using hf)
    · exact hs

theorem keyRelease_keeps_inv (hs : s.Inv) (k : Nat) : (keyRelease k s).Inv := by
  unfold keyRelease
  split
  · exact hs
  · split
    · exact hs.setKey _ _
    · exact hs

theorem transact_keeps_inv (hs : s.Inv) (hleft : s.left = 0) (e : HostEvent) (h : transact e s = .next t) : t.Inv := by
  cases e with
  | reset => cases h; exact resetCore_inv s
  | load image => exact load_keeps_inv hs hleft h
  | tick => exact startTick_keeps_inv hs hleft h
  | keyPress k => cases h; exact keyPress_keeps_inv hs k
  | keyRelease k => cases h; exact keyRelease_keeps_inv hs k

/-! ## One move -/

/-- Settles O59, by the five kinds of move: inside a tick the CORE runs and no `Load` is to come, so the instruction keeps the CORE's
part and the close gives the rest; between ticks each transaction keeps the whole. -/
theorem stepKeepsInvariant : Obligations.StepKeepsInvariant := by
  unfold Obligations.StepKeepsInvariant
  intro s t hs h
  change driverStep s = .next t at h
  obtain ⟨k, hleft, -, he⟩ | ⟨k, hleft, hstop, -⟩ | ⟨e, rest, hleft, -, he⟩ | ⟨hleft, -, -, he⟩ | ⟨r, -, -, -, he⟩ :=
    driverStep_cases s
  · obtain ⟨hbound, hrun⟩ := hs.leftBound (by omega)
    have hload : s.loadable = false := by
      by_contra hl
      obtain ⟨hzero, -, -⟩ := hs.loadFresh (by simpa using hl)
      omega
    exact quantumStep_keeps_inv hs.core ((State.running_iff s).mp hrun).1 hload (by omega) (he ▸ h)
  · obtain ⟨-, hrun⟩ := hs.leftBound (by omega)
    simp [hstop] at hrun
  · exact transact_keeps_inv (hs.withHost rest) hleft e (he ▸ h)
  · exact startTick_keeps_inv hs hleft (he ▸ h)
  · simp [he] at h

end Sys2Proof.Machine
end

section
/-! PROOFS. Memory and the fetch: addresses reduced mod 4096, a byte read after a byte written, and who writes memory. -/

namespace Sys2Proof.Machine

/-! ## Addresses -/

/-- The port's reduction absorbs the 16-bit wrap of `base + k`, since 4096 divides 65536 (R42, R150); `effAddr_offset` for every
offset. -/
theorem effAddr_offsetAddr (base : Word) (k : Nat) : effAddr (offsetAddr base k) = (base.toNat + k) % 4096 := by
  have h16 : (offsetAddr base k).toNat = (base.toNat + k) % 65536 := by simp [offsetAddr, BitVec.toNat_add]
  change (offsetAddr base k).toNat % 4096 = _
  rw [h16]
  exact Nat.mod_mod_of_dvd _ (by decide)

/-- The second byte of a fetch is reduced by itself (R44). -/
theorem effAddr_add_one (a : Word) : effAddr (a + 1) = (a.toNat + 1) % 4096 := effAddr_offsetAddr a 1

/-- The two bytes of a fetch are two bytes of the array. -/
theorem effAddr_ne_effAddr_add_one (a : Word) : effAddr a ≠ effAddr (a + 1) := by
  rw [effAddr_add_one]
  change a.toNat % 4096 ≠ _
  omega

/-- Settles O22, by `effAddr_offsetAddr`. -/
theorem offsetAddressesWrap : Obligations.OffsetAddressesWrap := by
  unfold Obligations.OffsetAddressesWrap
  exact effAddr_offsetAddr

/-! ## Bytes -/

/-- The address written reads as the byte written (R45). -/
theorem State.memRead_memWrite_same {s : State} (hwf : s.mem.wf) {a a' : Word} (b : Byte) (h : effAddr a' = effAddr a) :
    (s.memWrite a b).memRead a' = b := by
  rw [State.memRead_memWrite_of_wf hwf, if_pos h]

/-- Any other address reads as before (R45). -/
theorem State.memRead_memWrite_ne {s : State} (hwf : s.mem.wf) {a a' : Word} (b : Byte) (h : effAddr a' ≠ effAddr a) :
    (s.memWrite a b).memRead a' = s.memRead a' := by
  rw [State.memRead_memWrite_of_wf hwf, if_neg h]

/-- Settles O26: `effAddr` is the reduction mod 4096, a read looks at nothing else of its address, and a write is followed by
`State.memRead_memWrite_same` and `State.memRead_memWrite_ne`. -/
theorem memoryReadAfterWrite : Obligations.MemoryReadAfterWrite := by
  unfold Obligations.MemoryReadAfterWrite
  intro s addr b hwf
  have hread (a a' : Word) (h : effAddr a = effAddr a') : s.memRead a = s.memRead a' := congrArg s.mem.read h
  exact ⟨State.memWrite_wf hwf addr b, hread, fun _ => State.memRead_memWrite_same hwf b, fun _ => State.memRead_memWrite_ne hwf b, rfl⟩

/-! ## The fetch -/

/-- The byte at the lower address is the high one (R44, R46). -/
theorem wordOfBytes_toNat (hi lo : Byte) : (wordOfBytes hi lo).toNat = hi.toNat * 256 + lo.toNat := by
  rw [wordOfBytes, BitVec.toNat_append, ← Nat.shiftLeft_add_eq_or_of_lt lo.isLt, Nat.shiftLeft_eq]

/-- Two bytes stored at `PC` are the word fetched: the second store misses the first byte (R54). -/
theorem fetch_memWrite_memWrite {s : State} (hwf : s.mem.wf) (hi lo : Byte) :
    ((s.memWrite s.pc hi).memWrite (s.pc + 1) lo).fetch = wordOfBytes hi lo := by
  have hwf' : (s.memWrite s.pc hi).mem.wf := State.memWrite_wf hwf s.pc hi
  have hhi : ((s.memWrite s.pc hi).memWrite (s.pc + 1) lo).memRead s.pc = hi :=
    (State.memRead_memWrite_ne hwf' lo (effAddr_ne_effAddr_add_one s.pc)).trans (State.memRead_memWrite_same hwf hi rfl)
  have hlo : ((s.memWrite s.pc hi).memWrite (s.pc + 1) lo).memRead (s.pc + 1) = lo :=
    State.memRead_memWrite_same hwf' lo rfl
  exact congrArg₂ wordOfBytes hhi hlo

/-- Settles O27: the fetch is the word of the two bytes at `PC`, and `fetch_memWrite_memWrite` says which they are after a store. -/
theorem fetchIsBigEndianAndCoherent : Obligations.FetchIsBigEndianAndCoherent := by
  unfold Obligations.FetchIsBigEndianAndCoherent
  intro s
  constructor
  · rw [State.fetch, wordOfBytes_toNat, State.memRead, State.memRead, effAddr_add_one]
    rfl
  · intro hwf hi lo
    rw [fetch_memWrite_memWrite hwf, wordOfBytes_toNat]

/-! ## Who writes memory -/

/-- Settles O39: the footprints that name memory are those of the two stores. -/
theorem onlyTheStoresWriteMemory : Obligations.OnlyTheStoresWriteMemory := by
  unfold Obligations.OnlyTheStoresWriteMemory
  intro i s t h hldB hstore
  cases exec_footprint h with
  | digits x => exact absurd rfl (hldB x)
  | blockStore x => exact absurd rfl (hstore x)
  | registers | transfer | clear | draw | pop | underflow | push | overflow | loadIndex | addIndex | glyphIndex | await | delayTimer
  | soundTimer => rfl

end Sys2Proof.Machine
end

section
/-! PROOFS. The encoding: the decoder and the encoder are inverse to each other, and both are the opcode table
(spec/30_encoding.md R60 to R67). -/

namespace Sys2Proof

/-! ## Bytes and nibbles of a word -/

/-- Two concatenations of equal parts are equal part by part. -/
theorem append_eq_append_iff {m n : Nat} {a c : BitVec m} {b d : BitVec n} : a ++ b = c ++ d ↔ a = c ∧ b = d := by
  refine ⟨fun h => ⟨?_, ?_⟩, fun ⟨hac, hbd⟩ => hac ▸ hbd ▸ rfl⟩
  · simpa only [BitVec.extractLsb'_append_eq_left] using congrArg (BitVec.extractLsb' n m) h
  · simpa only [BitVec.extractLsb'_append_eq_right] using congrArg (BitVec.extractLsb' 0 n) h

/-- A word is its two bytes, the high one first (R60). -/
theorem wordOfBytes_extract (w : Word) : wordOfBytes (w.extractLsb' 8 8) (w.extractLsb' 0 8) = w :=
  BitVec.extractLsb'_append_extractLsb' (w := 8) (len := 8)

/-- Case analysis on the value of a nibble, the opcode map's split by top nibble (R65). -/
theorem nibble_cases {P : Nibble → Prop} (v : Nibble)
    (d0 : P 0x0#4) (d1 : P 0x1#4) (d2 : P 0x2#4) (d3 : P 0x3#4) (d4 : P 0x4#4) (d5 : P 0x5#4) (d6 : P 0x6#4) (d7 : P 0x7#4)
    (d8 : P 0x8#4) (d9 : P 0x9#4) (dA : P 0xA#4) (dB : P 0xB#4) (dC : P 0xC#4) (dD : P 0xD#4) (dE : P 0xE#4) (dF : P 0xF#4) :
    P v := by
  obtain ⟨k, hk⟩ := v
  interval_cases k <;> assumption

/-! ## From the instruction to the word and back -/

theorem decodeWord_formatNNN (op x y n : Nibble) : decodeWord (formatNNN op (x ++ y ++ n)) = decodeNibbles op x y n := by
  rw [formatNNN_nibbles, decodeWord_append]

theorem decodeWord_formatXNN (op : Nibble) (x : RegIx) (y n : Nibble) :
    decodeWord (formatXNN op x (y ++ n)) = decodeNibbles op (fieldOf x) y n := by
  rw [formatXNN_nibbles, decodeWord_append]

theorem decodeWord_formatXYN (op : Nibble) (x y : RegIx) (n : Nibble) :
    decodeWord (formatXYN op x y n) = decodeNibbles op (fieldOf x) (fieldOf y) n :=
  decodeWord_append op (fieldOf x) (fieldOf y) n

/-- The decoder undoes the encoder, format by format (R62). -/
theorem decodeWord_encode {i : Instr} (hi : i.WellFormed) : decodeWord (encode i) = .ok i := by
  cases i with
  | cls | ret => rfl
  | jp nnn | call nnn | ldI nnn | jpV0 nnn =>
    obtain ⟨x, y, n, rfl⟩ := addr_eq_nibbles nnn
    exact decodeWord_formatNNN _ x y n
  | seImm x nn | sneImm x nn | ldImm x nn | addImm x nn | rnd x nn =>
    obtain ⟨y, n, rfl⟩ := byte_eq_nibbles nn
    exact decodeWord_formatXNN _ x y n
  | seReg x y | ldReg x y | orReg x y | andReg x y | xorReg x y | addReg x y | subReg x y | shr x y | subnReg x y | shl x y
  | sneReg x y => exact decodeWord_formatXYN _ x y _
  | drw x y n =>
    have hn : (BitVec.ofNat 4 n).toNat = n := Nat.mod_eq_of_lt (of_decide_eq_true hi)
    refine (decodeWord_formatXYN _ x y _).trans ?_
    show Except.ok (Instr.drw x y (BitVec.ofNat 4 n).toNat) = _
    rw [hn]
  | skp x => exact decodeWord_formatXNN 0xE x 0x9 0xE
  | sknp x => exact decodeWord_formatXNN 0xE x 0xA 0x1
  | ldVxDT x => exact decodeWord_formatXNN 0xF x 0x0 0x7
  | ldVxK x => exact decodeWord_formatXNN 0xF x 0x0 0xA
  | ldDTVx x => exact decodeWord_formatXNN 0xF x 0x1 0x5
  | ldSTVx x => exact decodeWord_formatXNN 0xF x 0x1 0x8
  | addI x => exact decodeWord_formatXNN 0xF x 0x1 0xE
  | ldF x => exact decodeWord_formatXNN 0xF x 0x2 0x9
  | ldB x => exact decodeWord_formatXNN 0xF x 0x3 0x3
  | storeRegs x => exact decodeWord_formatXNN 0xF x 0x5 0x5
  | loadRegs x => exact decodeWord_formatXNN 0xF x 0x6 0x5

/-- A byte sequence that begins with the bytes of a legal word decodes as the word, and the rest is left over (R60). -/
theorem decodeBytes_extract {w : Word} {i : Instr} (h : decodeWord w = .ok i) (rest : List Byte) :
    decodeBytes (w.extractLsb' 8 8 :: w.extractLsb' 0 8 :: rest) = .ok (i, rest) := by
  simp only [decodeBytes, wordOfBytes_extract, h]

/-- Settles O1, by `decodeWord_encode`, and at the head of a byte sequence by `decodeBytes_extract`. -/
theorem decodeOfEncodeIsTheInstruction : Obligations.DecodeOfEncodeIsTheInstruction := by
  unfold Obligations.DecodeOfEncodeIsTheInstruction
  intro i hi
  exact ⟨decodeWord_encode hi, decodeBytes_extract (decodeWord_encode hi)⟩

/-! ## From the word to the instruction and back -/

theorem encode_of_decodeFamily0 {x y n : Nibble} {i : Instr} (h : decodeFamily0 x y n = .ok i) :
    i.WellFormed ∧ encode i = 0x0#4 ++ x ++ y ++ n := by
  unfold decodeFamily0 at h
  split at h
  · next hcls =>
    obtain ⟨rfl, rfl, rfl⟩ := hcls
    cases h
    exact ⟨rfl, rfl⟩
  · split at h
    · next hret =>
      obtain ⟨rfl, rfl, rfl⟩ := hret
      cases h
      exact ⟨rfl, rfl⟩
    · cases h

theorem encode_of_decodeFamily8 {x y : RegIx} {n : Nibble} {i : Instr} (h : decodeFamily8 x y n = .ok i) :
    i.WellFormed ∧ encode i = formatXYN 0x8 x y n := by
  unfold decodeFamily8 at h
  split at h <;> cases h <;> exact ⟨rfl, rfl⟩

theorem encode_of_decodeFamilyE {x : RegIx} {nn : Byte} {i : Instr} (h : decodeFamilyE x nn = .ok i) :
    i.WellFormed ∧ encode i = formatXNN 0xE x nn := by
  unfold decodeFamilyE at h
  split at h <;> cases h <;> exact ⟨rfl, rfl⟩

theorem encode_of_decodeFamilyF {x : RegIx} {nn : Byte} {i : Instr} (h : decodeFamilyF x nn = .ok i) :
    i.WellFormed ∧ encode i = formatXNN 0xF x nn := by
  unfold decodeFamilyF at h
  split at h <;> cases h <;> exact ⟨rfl, rfl⟩

/-- The encoder undoes the decoder, top nibble by top nibble (R65). -/
theorem encode_of_decodeNibbles {op x y n : Nibble} {i : Instr} (h : decodeNibbles op x y n = .ok i) :
    i.WellFormed ∧ encode i = op ++ x ++ y ++ n := by
  have hXNN (op : Nibble) : formatXNN op (regOf x) (y ++ n) = op ++ x ++ y ++ n := formatXNN_nibbles op (regOf x) y n
  cases op using nibble_cases with
  | d0 => exact encode_of_decodeFamily0 h
  | d1 | d2 | dA | dB =>
    cases h
    exact ⟨rfl, formatNNN_nibbles _ x y n⟩
  | d3 | d4 | d6 | d7 | dC =>
    cases h
    exact ⟨rfl, hXNN _⟩
  | d5 | d9 =>
    simp only [decodeNibbles] at h
    split at h
    · next hn =>
      cases h
      exact ⟨rfl, hn ▸ rfl⟩
    · cases h
  | d8 => exact encode_of_decodeFamily8 h
  | dD =>
    cases h
    refine ⟨decide_eq_true n.isLt, ?_⟩
    rw [encode, BitVec.ofNat_toNat, BitVec.setWidth_eq]
    rfl
  | dE => exact hXNN 0xE ▸ encode_of_decodeFamilyE h
  | dF => exact hXNN 0xF ▸ encode_of_decodeFamilyF h

/-- The encoder undoes the decoder (R64). -/
theorem encode_of_decodeWord {w : Word} {i : Instr} (h : decodeWord w = .ok i) : i.WellFormed ∧ encode i = w := by
  rw [word_eq_nibbles w]
  exact encode_of_decodeNibbles h

/-- Settles O2, by `encode_of_decodeWord`. -/
theorem encodeOfDecodeIsTheWord : Obligations.EncodeOfDecodeIsTheWord := by
  unfold Obligations.EncodeOfDecodeIsTheWord
  exact fun _ _ => encode_of_decodeWord

/-! ## The opcode table -/

/-- The word of an instruction matches the instruction's row of R66: the family `EncodesInRow`, put together. -/
theorem row_matches_encode (i : Instr) : i.row.Matches (encode i) := by
  open Laws.EncodesInRow in
  cases i with
  | cls => exact cls
  | ret => exact ret
  | jp nnn | call nnn | ldI nnn | jpV0 nnn => exact formatNNN_mask _ nnn
  | seImm x nn | sneImm x nn | ldImm x nn | addImm x nn | rnd x nn => exact formatXNN_mask _ x nn
  | seReg x y | ldReg x y | orReg x y | andReg x y | xorReg x y | addReg x y | subReg x y | shr x y | subnReg x y | shl x y
  | sneReg x y => exact formatXYN_mask _ x y _
  | drw x y n => exact drw x y n
  | skp x | sknp x | ldVxDT x | ldVxK x | ldDTVx x | ldSTVx x | addI x | ldF x | ldB x | storeRegs x | loadRegs x =>
    exact formatX_mask _ x _

/-- Every instruction is of one of the 34 rows. -/
theorem row_mem_opcodeTable (i : Instr) : i.row ∈ opcodeTable := by
  cases i <;> exact List.mem_of_elem_eq_true rfl

/-- Where the mask is all ones, the word's nibble is the pattern's. -/
theorem nibble_of_masked {w mask pattern : Word} (k : Nat) (h : w &&& mask = pattern) (hmask : mask.extractLsb' k 4 = 0xF#4) :
    w.extractLsb' k 4 = pattern.extractLsb' k 4 := by
  have hF : w.extractLsb' k 4 &&& 0xF#4 = w.extractLsb' k 4 := BitVec.and_allOnes
  rw [← h, BitVec.extractLsb'_and, hmask, hF]

/-- A word that matches a row decodes to an instruction of that row, mask by mask (R65). -/
theorem decodeWord_of_matches {i : Instr} {w : Word} (h : i.row.Matches w) : ∃ j, decodeWord w = .ok j ∧ j.row = i.row := by
  cases i with
  | cls | ret =>
    obtain rfl : w = _ := BitVec.and_allOnes.symm.trans h
    exact ⟨_, rfl, rfl⟩
  | jp nnn | call nnn | seImm x nn | sneImm x nn | ldImm x nn | addImm x nn | ldI nnn | jpV0 nnn | rnd x nn | drw x y n =>
    dsimp only [OpRow.Matches, Instr.row] at h
    have hop := nibble_of_masked 12 h rfl
    rw [decodeWord, nibble3, hop]
    exact ⟨_, rfl, rfl⟩
  | seReg x y | ldReg x y | orReg x y | andReg x y | xorReg x y | addReg x y | subReg x y | shr x y | subnReg x y | shl x y
  | sneReg x y =>
    dsimp only [OpRow.Matches, Instr.row] at h
    have hop := nibble_of_masked 12 h rfl
    have hn := nibble_of_masked 0 h rfl
    rw [decodeWord, nibble3, nibble0, hop, hn]
    exact ⟨_, rfl, rfl⟩
  | skp x | sknp x | ldVxDT x | ldVxK x | ldDTVx x | ldSTVx x | addI x | ldF x | ldB x | storeRegs x | loadRegs x =>
    dsimp only [OpRow.Matches, Instr.row] at h
    have hop := nibble_of_masked 12 h rfl
    have hy := nibble_of_masked 4 h rfl
    have hn := nibble_of_masked 0 h rfl
    rw [decodeWord, nibble3, nibble1, nibble0, hop, hy, hn]
    exact ⟨_, rfl, rfl⟩

/-- A word matches one row at most: the row of what it decodes to. -/
theorem row_eq_of_matches {r r' : OpRow} (hr : r ∈ opcodeTable) (hr' : r' ∈ opcodeTable) {w : Word} (h : r.Matches w)
    (h' : r'.Matches w) : r = r' := by
  obtain ⟨i, -, rfl⟩ := List.mem_map.mp hr
  obtain ⟨i', -, rfl⟩ := List.mem_map.mp hr'
  obtain ⟨j, hj, hrow⟩ := decodeWord_of_matches h
  obtain ⟨j', hj', hrow'⟩ := decodeWord_of_matches h'
  obtain rfl : j = j' := Except.ok.inj (hj.symm.trans hj')
  exact hrow.symm.trans hrow'

theorem opcodeTable_nodup : opcodeTable.Nodup := by decide

/-- Settles O3: the rows are 34 different ones, a word is in the row of what it decodes to (`row_matches_encode`), and it decodes into
the row it matches (`decodeWord_of_matches`). -/
theorem decodeIsTheOpcodeTable : Obligations.DecodeIsTheOpcodeTable := by
  unfold Obligations.DecodeIsTheOpcodeTable
  refine ⟨rfl, ?_, fun w i h => ⟨row_mem_opcodeTable i, ?_⟩, fun r hr w h => ?_⟩
  · exact opcodeTable_nodup.imp_of_mem fun hr hr' hne w ⟨h, h'⟩ => hne (row_eq_of_matches hr hr' h h')
  · obtain ⟨-, rfl⟩ := encode_of_decodeWord h
    exact row_matches_encode i
  · obtain ⟨i, -, rfl⟩ := List.mem_map.mp hr
    exact decodeWord_of_matches h

/-! ## The illegal words -/

theorem decodeFamily0_error_iff (x y n : Nibble) :
    (∃ e, decodeFamily0 x y n = .error e) ↔ ¬ (x = 0x0 ∧ y = 0xE ∧ (n = 0x0 ∨ n = 0xE)) := by
  unfold decodeFamily0
  split
  · next hcls => simp [hcls]
  · next hcls =>
    split
    · next hret => simp [hret]
    · next hret =>
      have hn (hx : x = 0x0) (hy : y = 0xE) : n ≠ 0x0 ∧ n ≠ 0xE :=
        ⟨fun h0 => hcls ⟨hx, hy, h0⟩, fun hE => hret ⟨hx, hy, hE⟩⟩
      simpa using hn

theorem decodeFamily8_error_iff (x y : RegIx) (n : Nibble) :
    (∃ e, decodeFamily8 x y n = .error e) ↔
      n = 0x8 ∨ n = 0x9 ∨ n = 0xA ∨ n = 0xB ∨ n = 0xC ∨ n = 0xD ∨ n = 0xF := by
  cases n using nibble_cases <;> simp [decodeFamily8]

theorem decodeFamilyE_error_iff (x : RegIx) (y n : Nibble) :
    (∃ e, decodeFamilyE x (y ++ n) = .error e) ↔ ¬ (y = 0x9 ∧ n = 0xE) ∧ ¬ (y = 0xA ∧ n = 0x1) := by
  have h9E : y ++ n = 0x9E#8 ↔ y = 0x9 ∧ n = 0xE := append_eq_append_iff (c := 0x9#4) (d := 0xE#4)
  have hA1 : y ++ n = 0xA1#8 ↔ y = 0xA ∧ n = 0x1 := append_eq_append_iff (c := 0xA#4) (d := 0x1#4)
  rw [← h9E, ← hA1]
  unfold decodeFamilyE
  split <;> simp_all

/-- The low bytes of family F (R66), each as its two nibbles. -/
def familyFSubs : List (Nibble × Nibble) :=
  [(0x0, 0x7), (0x0, 0xA), (0x1, 0x5), (0x1, 0x8), (0x1, 0xE), (0x2, 0x9), (0x3, 0x3), (0x5, 0x5), (0x6, 0x5)]

theorem mem_familyFSubs_iff (y n : Nibble) :
    (y, n) ∈ familyFSubs ↔ y ++ n ∈ [0x07#8, 0x0A#8, 0x15#8, 0x18#8, 0x1E#8, 0x29#8, 0x33#8, 0x55#8, 0x65#8] := by
  have hinj : Function.Injective (fun p : Nibble × Nibble => p.1 ++ p.2) := fun p q h => Prod.ext_iff.mpr (append_eq_append_iff.mp h)
  exact (List.mem_map_of_injective hinj (a := (y, n)) (l := familyFSubs)).symm

theorem decodeFamilyF_error_iff (x : RegIx) (y n : Nibble) :
    (∃ e, decodeFamilyF x (y ++ n) = .error e) ↔ (y, n) ∉ familyFSubs := by
  rw [mem_familyFSubs_iff]
  unfold decodeFamilyF
  split <;> simp_all

/-- Settles O4: four families have their lemma, two are illegal but for `n = 0`, and the other ten have no illegal word. -/
theorem illegalWordsAreTheSixPatterns : Obligations.IllegalWordsAreTheSixPatterns := by
  unfold Obligations.IllegalWordsAreTheSixPatterns
  intro op x y n
  rw [decodeWord_append]
  cases op using nibble_cases with
  | d0 => exact (decodeFamily0_error_iff x y n).trans (by simp)
  | d5 | d9 => by_cases hn : n = 0#4 <;> simp [decodeNibbles, hn]
  | d8 => exact (decodeFamily8_error_iff (regOf x) (regOf y) n).trans (by simp)
  | dE => exact (decodeFamilyE_error_iff (regOf x) y n).trans (by simp)
  | dF => exact (decodeFamilyF_error_iff (regOf x) y n).trans (by simp [familyFSubs])
  | d1 | d2 | d3 | d4 | d6 | d7 | dA | dB | dC | dD => simp [decodeNibbles]

/-- Settles O5: each word decodes by evaluation. -/
theorem specWordsDecode : Obligations.SpecWordsDecode := by
  unfold Obligations.SpecWordsDecode
  exact ⟨rfl, rfl, rfl, rfl, rfl, rfl, rfl, rfl, rfl, rfl, rfl, rfl, rfl, rfl, rfl, rfl, rfl, rfl⟩

end Sys2Proof
end

section
/-! PROOFS. Every instruction completes, and a step that fetches is the fetched instruction or the fatal `DecodeError`; the probe makes
the next step fetch the word it places (spec/30_encoding.md R70, R71; spec/60_exceptions.md R213, R224). -/

namespace Sys2Proof.Machine

/-! ## Every instruction completes -/

theorem exec_completes (i : Instr) (s : State) : ∃ t, exec i s = .next t := by
  cases i with
  | ret =>
    simp only [exec, execRet]
    cases s.stack with
    | nil => exact ⟨_, rfl⟩
    | cons top rest => exact ⟨_, rfl⟩
  | call nnn =>
    simp only [exec, execCall]
    cases s.stackFull with
    | true => exact ⟨_, rfl⟩
    | false => exact ⟨_, rfl⟩
  | cls | jp nnn | jpV0 nnn | seImm x nn | sneImm x nn | seReg x y | sneReg x y | skp x | sknp x | ldImm x nn | addImm x nn
  | ldReg x y | orReg x y | andReg x y | xorReg x y | addReg x y | subReg x y | shr x y | subnReg x y | shl x y | rnd x nn
  | ldI nnn | addI x | ldF x | ldB x | storeRegs x | loadRegs x | drw x y n | ldVxDT x | ldVxK x | ldDTVx x | ldSTVx x =>
    exact ⟨_, rfl⟩

/-- The model's own fields that the driver uses (assumptions 4, 5). -/
theorem unseen_driver_fields (h : List HostEvent) (l : Nat) (b : Bool) :
    Unseen (fun s => { s with host := h, left := l, loadable := b }) := by
  constructor <;> intros <;> rfl

/-- Settles O36, by `exec_completes` and since the driver's fields are unseen. -/
theorem everyInstructionCompletes : Obligations.EveryInstructionCompletes := by
  unfold Obligations.EveryInstructionCompletes
  intro i s
  obtain ⟨t, ht⟩ := exec_completes i s
  exact ⟨t, ht, fun h l b => (unseen_driver_fields h l b).exec (fun _ _ => rfl) (fun _ _ => rfl) (fun _ _ _ => rfl) ht⟩

/-! ## The state a step fetches in -/

variable {s : State}

@[simp] theorem State.fetchState_pc (s : State) : s.fetchState.pc = s.pc := by
  unfold State.fetchState
  split <;> rfl

@[simp] theorem State.fetchState_fetch (s : State) : s.fetchState.fetch = s.fetch := by
  unfold State.fetchState
  split <;> rfl

theorem State.readyToFetch_iff (s : State) :
    s.readyToFetch = true ↔ s.running = true ∧ (0 < s.left ∨ s.tickNext = true ∧ 0 < s.params.ipf) := by
  simp only [State.readyToFetch, Bool.and_eq_true, Bool.or_eq_true, decide_eq_true_eq]

/-- A tick of a running CORE with steps to take is its first step (R224). -/
theorem startTick_running (hrun : s.running = true) (hipf : 0 < s.params.ipf) :
    startTick s = quantumStep (s.params.ipf - 1) { s with loadable := false } := by
  obtain ⟨hfault, hpaused⟩ := (State.running_iff s).mp hrun
  obtain ⟨⟨r, hr⟩, -⟩ | ⟨-, hp, -⟩ | ⟨-, -, hzero, -⟩ | ⟨k, -, -, hk, he⟩ := startTick_cases s
  · simp [hfault] at hr
  · simp [hpaused] at hp
  · omega
  · rw [he, hk]
    rfl

/-- Between ticks, a step of a CORE without a fault that the host ticks starts the tick; an empty script ticks (R223; assumption 4). -/
theorem step_of_tickNext (hleft : s.left = 0) (htick : s.tickNext = true) (hfault : s.fault = none) :
    step s = startTick { s with host := s.host.tail } := by
  change driverStep s = _
  obtain ⟨k, hk, -⟩ | ⟨k, hk, -⟩ | ⟨e, rest, -, hhost, he⟩ | ⟨-, hhost, -, he⟩ | ⟨r, -, -, hr, -⟩ :=
    driverStep_cases s
  · omega
  · omega
  · obtain rfl : e = .tick := by
      cases e with
      | tick => rfl
      | reset | load image | keyPress k | keyRelease k => simp [State.tickNext, hhost] at htick
    rw [he, hhost]
    rfl
  · have htail : { s with host := s.host.tail } = s := by rw [hhost, List.tail_nil, ← hhost]
    rw [he, htail]
  · simp [hfault] at hr

/-- A step that fetches is one instruction of a tick, in the state `fetchState` (R224; assumption 4). -/
theorem step_of_readyToFetch (h : s.readyToFetch = true) : step s = quantumStep s.leftAfter s.fetchState := by
  obtain ⟨hrun, hmore⟩ := (State.readyToFetch_iff s).mp h
  cases hleft : s.left with
  | succ k =>
    change driverStep s = _
    simp only [driverStep, State.leftAfter, State.fetchState, hleft, hrun, if_true]
  | zero =>
    obtain ⟨htick, hipf⟩ : s.tickNext = true ∧ 0 < s.params.ipf := hmore.resolve_left (by omega)
    rw [step_of_tickNext hleft htick ((State.running_iff s).mp hrun).1,
      startTick_running (s := { s with host := s.host.tail }) hrun hipf]
    simp only [State.leftAfter, State.fetchState, hleft]

/-- A legal word at `PC`: the step is its instruction on `PC + 2`, and the close (R70). -/
theorem step_of_decodes {i : Instr} (h : s.readyToFetch = true) (hi : decodeWord s.fetch = .ok i) :
    step s = andThen (exec i (s.fetchState.setPc (s.pc + 2))) (fun t => .next (closeStep s.leftAfter t)) := by
  rw [step_of_readyToFetch h, quantumStep, stepInstr, State.fetchState_fetch, hi, State.advancePc, State.fetchState_pc]

/-- An illegal word at `PC`: the step is the fatal `DecodeError`, with the word and its address, and it ends the tick (R213, R225 d). -/
theorem step_of_illegal {e : Illegal} (h : s.readyToFetch = true) (he : decodeWord s.fetch = .error e) :
    step s = .next { (s.fetchState.setPc (s.pc + 2)).raiseFatal .decodeError s.fetch s.pc with left := 0 } := by
  have hstop : ((s.fetchState.setPc (s.pc + 2)).raiseFatal .decodeError s.fetch s.pc).running = false := rfl
  rw [step_of_readyToFetch h, quantumStep, stepInstr, State.fetchState_fetch, he, State.advancePc, State.fetchState_pc]
  exact congrArg _ (closeStep_stopped hstop)

/-- Settles O44, by `step_of_decodes`. -/
theorem stepRunsTheDecodedInstruction : Obligations.StepRunsTheDecodedInstruction := by
  unfold Obligations.StepRunsTheDecodedInstruction
  exact fun _ _ => step_of_decodes

/-! ## The probe -/

/-- What `makeReady` is for: the next move is a fetch. -/
theorem State.makeReady_readyToFetch (s : State) : s.makeReady.readyToFetch = true := by
  unfold State.makeReady
  split
  · assumption
  · exact (State.readyToFetch_iff _).mpr ⟨rfl, .inl (Nat.lt_of_lt_of_le Nat.one_pos (Nat.le_max_left 1 s.left))⟩

@[simp] theorem State.makeReady_mem (s : State) : s.makeReady.mem = s.mem := by
  unfold State.makeReady
  split <;> rfl

@[simp] theorem State.makeReady_pc (s : State) : s.makeReady.pc = s.pc := by
  unfold State.makeReady
  split <;> rfl

@[simp] theorem State.makeReady_memRead (s : State) (a : Word) : s.makeReady.memRead a = s.memRead a := by
  rw [State.memRead, State.memRead, State.makeReady_mem]

@[simp] theorem State.withFetchWord_pc (s : State) (nbits w : Nat) : (s.withFetchWord nbits w).pc = s.pc :=
  State.makeReady_pc _

/-- The word fetched after the probe is the word placed (R44, R60). -/
theorem withFetchWord_fetch (hwf : s.mem.wf) (nbits w : Nat) :
    (s.withFetchWord nbits w).fetch = BitVec.ofNat 16 (w % 2 ^ nbits) := by
  have hplaced (v : Word) : (s.placeWord v).fetch = v := (fetch_memWrite_memWrite hwf _ _).trans (wordOfBytes_extract v)
  rw [State.withFetchWord, State.fetch, State.makeReady_memRead, State.makeReady_memRead, State.makeReady_pc]
  exact hplaced _

/-- The probe writes the two bytes at `PC` and `PC + 1` only. -/
theorem withFetchWord_memRead_ne (hwf : s.mem.wf) (nbits w : Nat) {a : Word} (hhi : effAddr a ≠ effAddr s.pc)
    (hlo : effAddr a ≠ effAddr (s.pc + 1)) : (s.withFetchWord nbits w).memRead a = s.memRead a := by
  rw [State.withFetchWord, State.makeReady_memRead, State.placeWord, State.memRead_memWrite_ne (State.memWrite_wf hwf _ _) _ hlo,
    State.memRead_memWrite_ne hwf _ hhi]

/-- The host's table probe answers the instruction of a legal word. -/
theorem decodeTableWord_eq_some_iff {nbits w : Nat} {i : Instr} :
    decodeTableWord nbits w = some i ↔ decodeWord (BitVec.ofNat 16 (w % 2 ^ nbits)) = .ok i := by
  simp only [decodeTableWord, decodeBytes, wordOfBytes_extract]
  cases decodeWord (BitVec.ofNat 16 (w % 2 ^ nbits)) <;> simp

/-- The host's table probe answers nothing for an illegal word. -/
theorem decodeTableWord_eq_none_iff {nbits w : Nat} :
    decodeTableWord nbits w = none ↔ ∃ e, decodeWord (BitVec.ofNat 16 (w % 2 ^ nbits)) = .error e := by
  simp only [decodeTableWord, decodeBytes, wordOfBytes_extract]
  cases decodeWord (BitVec.ofNat 16 (w % 2 ^ nbits)) <;> simp

/-- Settles O46: the word placed is the word fetched (`withFetchWord_fetch`), so `step_of_decodes` and `step_of_illegal` say what the
step is. -/
theorem placedWordRunsNext : Obligations.PlacedWordRunsNext := by
  unfold Obligations.PlacedWordRunsNext
  intro s nbits w hwf
  have hready : (s.withFetchWord nbits w).readyToFetch = true := State.makeReady_readyToFetch _
  have hfetch := withFetchWord_fetch hwf nbits w
  rw [decodeTableWord_eq_none_iff, ← hfetch]
  refine ⟨hready, rfl, fun i hi => ?_, fun ⟨e, he⟩ => ?_, fun a => withFetchWord_memRead_ne hwf nbits w, fun hs => ?_⟩
  · have hdec : decodeWord (s.withFetchWord nbits w).fetch = .ok i := hfetch ▸ decodeTableWord_eq_some_iff.mp hi
    obtain ⟨u, hu⟩ := exec_completes i ((s.withFetchWord nbits w).fetchState.setPc (s.pc + 2))
    refine ⟨u, hu, ?_⟩
    rw [step_of_decodes hready hdec, State.withFetchWord_pc, hu, andThen_next]
  · rw [← State.withFetchWord_pc s nbits w]
    exact ⟨_, step_of_illegal hready he, rfl, rfl⟩
  · have hplaced : (s.placeWord (BitVec.ofNat 16 (w % 2 ^ nbits))).readyToFetch = true := hs
    rw [State.withFetchWord, State.makeReady, if_pos hplaced]
    rfl

end Sys2Proof.Machine
end

section
/-! PROOFS. The control transfer instructions: jumps, the call stack and its two fatals, and the skips
(spec/40_control_transfer.md). -/

namespace Sys2Proof.Machine

/-! ## Jumps -/

/-- Zero extension to 16 bits keeps the value of a field no wider than that (R7). -/
theorem zext16_toNat {n : Nat} (hn : n ≤ 16) (v : BitVec n) : (zext16 v).toNat = v.toNat :=
  BitVec.toNat_setWidth_of_le hn

/-- An address field plus a byte stays below 65536, so the 16-bit sum never wraps (R108). -/
theorem zext16_add_zext16_toNat (nnn : Addr12) (b : Byte) : (zext16 nnn + zext16 b).toNat = nnn.toNat + b.toNat := by
  have hn : (zext16 nnn).toNat = nnn.toNat := zext16_toNat (by decide) nnn
  have hb : (zext16 b).toNat = b.toNat := zext16_toNat (by decide) b
  rw [BitVec.toNat_add, hn, hb]
  omega

theorem onlyPc_setPc (s : State) (w : Word) : OnlyPc s (s.setPc w) :=
  ⟨fun _ _ => rfl, fun _ => rfl, rfl⟩

/-- Settles O6: the word is the encoder's (`decodeWord_encode`), and the jump is one write of `PC`. -/
theorem jumpSetsPc : Obligations.JumpSetsPc := by
  unfold Obligations.JumpSetsPc
  intro nnn s
  have hword : decodeWord (encode (.jp nnn)) = .ok (.jp nnn) := decodeWord_encode rfl
  exact ⟨hword, _, rfl, zext16_toNat (by decide) nnn, onlyPc_setPc s _⟩

/-- Settles O11, by `zext16_add_zext16_toNat`. -/
theorem jumpWithOffset : Obligations.JumpWithOffset := by
  unfold Obligations.JumpWithOffset
  intro nnn s
  exact ⟨_, rfl, zext16_add_zext16_toNat nnn (s.reg 0), onlyPc_setPc s _⟩

/-! ## The call stack -/

variable {s : State}

theorem exec_ret_pop {top : Word} {rest : List Word} (hs : s.stack = top :: rest) :
    exec .ret s = .next ((s.setStack rest).setPc top) := by
  rw [exec, execRet, hs]

theorem exec_ret_underflow (hs : s.stack = []) :
    exec .ret s = .next (s.raiseFatal .stackUnderflow (encode .ret) s.ownAddr) := by
  rw [exec, execRet, hs]

theorem exec_call_push (nnn : Addr12) (hroom : s.stackFull = false) :
    exec (.call nnn) s = .next ((s.push s.pc).setPc (zext16 nnn)) := by
  rw [exec, execCall, hroom]
  rfl

theorem exec_call_overflow (nnn : Addr12) (hfull : s.stackFull = true) :
    exec (.call nnn) s = .next (s.raiseFatal .stackOverflow (encode (.call nnn)) s.ownAddr) := by
  rw [exec, execCall, if_pos hfull]

/-- Fewer entries than every finite `STACK_DEPTH`: the call stack is not full (R16). -/
theorem not_full_of_room (hroom : ∀ n, s.params.stackDepth = some n → s.stack.length < n) : s.stackFull = false := by
  refine Bool.eq_false_iff.mpr fun hfull => ?_
  obtain ⟨n, hn, hle⟩ := (stackFull_iff s).mp hfull
  exact absurd (hroom n hn) (Nat.not_lt.mpr hle)

/-- Settles O7: a pop by `exec_ret_pop`, the fatal entry by `exec_ret_underflow`. -/
theorem returnPopsOrIsFatal : Obligations.ReturnPopsOrIsFatal := by
  unfold Obligations.ReturnPopsOrIsFatal
  constructor
  · intro s top rest hs
    exact ⟨_, exec_ret_pop hs, rfl, rfl, fun _ _ => rfl, fun _ => rfl, rfl⟩
  · intro s hs
    exact ⟨_, exec_ret_underflow hs, rfl, fun _ _ => rfl, fun _ => rfl, rfl⟩

/-- Settles O8: a push and a jump by `exec_call_push`, the fatal entry by `exec_call_overflow`. -/
theorem callPushesOrIsFatal : Obligations.CallPushesOrIsFatal := by
  unfold Obligations.CallPushesOrIsFatal
  constructor
  · intro nnn s hroom
    have hcall := exec_call_push nnn (not_full_of_room hroom)
    exact ⟨_, hcall, zext16_toNat (by decide) nnn, rfl, fun _ _ => rfl, fun _ => rfl, rfl⟩
  · intro nnn s hdepth
    have hfull : s.stackFull = true := (stackFull_iff s).mpr ⟨_, hdepth, Nat.le_refl _⟩
    exact ⟨_, exec_call_overflow nnn hfull, rfl, fun _ _ => rfl, fun _ => rfl, rfl⟩

/-! ## Skips -/

theorem onlyPc_skipIf (c : Bool) (s : State) : OnlyPc s (skipIf c s) := by
  rw [skipIf_eq]
  exact onlyPc_setPc s _

/-- An instruction that is a skip on `c` adds a further 2 to `PC` where `c` holds, and changes nothing where it does not: `p` and `q`
are the two outcomes as a claim words them (R100). -/
theorem exec_of_skipIf {i : Instr} {c : Bool} {p q : Prop} (hexec : exec i s = .next (skipIf c s)) (htaken : p → c = true)
    (hnot : q → c = false) :
    ∃ t, exec i s = .next t ∧ OnlyPc s t ∧ (p → t.pc = s.pc + 2) ∧ (q → t.pc = s.pc) := by
  refine ⟨_, hexec, onlyPc_skipIf c s, fun hp => ?_, fun hq => ?_⟩
  · rw [htaken hp]
    rfl
  · rw [hnot hq]
    rfl

/-- Settles O9, by `exec_of_skipIf`. -/
theorem immediateSkips : Obligations.ImmediateSkips := by
  unfold Obligations.ImmediateSkips
  intro x nn s
  exact ⟨exec_of_skipIf rfl beq_iff_eq.mpr beq_eq_false_iff_ne.mpr, exec_of_skipIf rfl bne_iff_ne.mpr bne_eq_false_iff_eq.mpr⟩

/-- Settles O10, by `exec_of_skipIf`. -/
theorem registerSkips : Obligations.RegisterSkips := by
  unfold Obligations.RegisterSkips
  intro x y s
  exact ⟨exec_of_skipIf rfl beq_iff_eq.mpr beq_eq_false_iff_ne.mpr, exec_of_skipIf rfl bne_iff_ne.mpr bne_eq_false_iff_eq.mpr⟩

end Sys2Proof.Machine
end

section
/-! PROOFS. The load, arithmetic, logic, shift and random instructions (spec/41_load_alu_random.md). -/

namespace Sys2Proof.Machine

variable {s : State} {x : RegIx}

/-! ## One register written -/

theorem sameRegsBut_setReg (s : State) (x : RegIx) (b : Byte) : SameRegsBut [x] s (s.setReg x b) :=
  fun _ hr => State.reg_setReg_ne s (List.ne_of_not_mem_cons hr) b

theorem onlyRegs_setReg (s : State) (x : RegIx) (b : Byte) : OnlyRegs [x] s (s.setReg x b) :=
  ⟨sameRegsBut_setReg s x b, fun _ => rfl, rfl⟩

/-- Settles O12: each of the three is one write of `V[x]`. -/
theorem loadsAndAddImmediate : Obligations.LoadsAndAddImmediate := by
  unfold Obligations.LoadsAndAddImmediate
  intro x y nn s
  refine ⟨⟨_, rfl, State.reg_setReg_same s x _, onlyRegs_setReg s x _⟩, ⟨_, rfl, ?_, onlyRegs_setReg s x _⟩,
    ⟨_, rfl, State.reg_setReg_same s x _, onlyRegs_setReg s x _⟩⟩
  rw [State.reg_setReg_same, BitVec.toNat_add]

/-- Settles O13: each operation is one write of `V[x]`, and the library says what each bit of the byte written is. -/
theorem logicOperations : Obligations.LogicOperations := by
  unfold Obligations.LogicOperations
  intro x y s
  refine ⟨⟨_, rfl, onlyRegs_setReg s x _, fun k _ => ?_⟩, ⟨_, rfl, onlyRegs_setReg s x _, fun k _ => ?_⟩,
    ⟨_, rfl, onlyRegs_setReg s x _, fun k _ => ?_⟩⟩
  · rw [State.reg_setReg_same, BitVec.getLsbD_or]
  · rw [State.reg_setReg_same, BitVec.getLsbD_and]
  · rw [State.reg_setReg_same, BitVec.getLsbD_xor]

/-- Settles O19: the byte written is `draw &&& nn`, which has no bit outside `nn`, and the counter moves by one. -/
theorem randomMaskedByImmediate : Obligations.RandomMaskedByImmediate := by
  unfold Obligations.RandomMaskedByImmediate
  intro x nn s
  have hreg : (s.setReg x (s.draw &&& nn)).tookDraw.reg x = s.draw &&& nn := State.reg_setReg_same s x _
  refine ⟨_, rfl, hreg, ?_, rfl, sameRegsBut_setReg s x _, fun _ => rfl, rfl⟩
  rw [hreg, BitVec.and_assoc, BitVec.and_not_self]
  exact BitVec.and_zero

/-! ## The two writes of R121 -/

/-- With the flag written last, `VF` holds the flag, whatever `x` is. -/
theorem reg_writeBoth_of_flagLast (h : s.params.vfWriteOrder = .flagLast) (r f : Byte) :
    (writeBoth x r f s).reg flagReg = f := by
  rw [reg_writeBoth, h]
  exact if_pos rfl

/-- With the result written last, `V[x]` holds the result, whatever `x` is. -/
theorem reg_writeBoth_of_resultLast (h : s.params.vfWriteOrder = .resultLast) (r f : Byte) :
    (writeBoth x r f s).reg x = r := by
  rw [reg_writeBoth, h]
  exact if_pos rfl

/-- For `x ≠ F` the order of the two writes does not show in `V[x]`. -/
theorem reg_writeBoth_result (hx : x ≠ flagReg) (r f : Byte) : (writeBoth x r f s).reg x = r := by
  cases h : s.params.vfWriteOrder with
  | flagLast => rw [reg_writeBoth, h]; exact (if_neg hx).trans (if_pos rfl)
  | resultLast => exact reg_writeBoth_of_resultLast h r f

/-- For `x ≠ F` the order of the two writes does not show in `VF`. -/
theorem reg_writeBoth_flag (hx : x ≠ flagReg) (r f : Byte) : (writeBoth x r f s).reg flagReg = f := by
  cases h : s.params.vfWriteOrder with
  | flagLast => exact reg_writeBoth_of_flagLast h r f
  | resultLast => rw [reg_writeBoth, h]; exact (if_neg hx.symm).trans (if_pos rfl)

theorem onlyRegs_writeBoth (s : State) (x : RegIx) (r f : Byte) : OnlyRegs [x, flagReg] s (writeBoth x r f s) := by
  refine ⟨fun q hq => ?_, fun a => ?_, writeBoth_eq x r f s⟩
  · obtain ⟨hqx, hqf⟩ : q ≠ x ∧ q ≠ flagReg := by simpa using hq
    cases h : s.params.vfWriteOrder <;> simp [reg_writeBoth, h, hqx, hqf]
  · rw [writeBoth_eq]
    rfl

/-- Settles O14: for `x ≠ F` the two writes do not meet; for `x = F` the later one stands. -/
theorem writeBothFollowsTheOrder : Obligations.WriteBothFollowsTheOrder := by
  unfold Obligations.WriteBothFollowsTheOrder
  intro x r f s
  refine ⟨onlyRegs_writeBoth s x r f, fun hx => ?_, fun _ h => ?_, fun hx h => ?_⟩
  · rw [reg_writeBoth_result hx, reg_writeBoth_flag hx]
    exact ⟨rfl, rfl⟩
  · rw [reg_writeBoth_of_flagLast h]
  · rw [← hx, reg_writeBoth_of_resultLast h]

/-- An instruction that is `WriteBoth` of a result and a flag, their values as a claim words them (R121). -/
theorem exec_of_writeBoth {i : Instr} {r f : Byte} {res flag : Nat} (hexec : exec i s = .next (writeBoth x r f s))
    (hres : r.toNat = res) (hflag : f.toNat = flag) : ∃ t, exec i s = .next t ∧ WritesBoth x res flag s t := by
  subst hres hflag
  exact ⟨_, hexec, writeBothFollowsTheOrder x r f s⟩

/-! ## Sum and differences -/

theorem boolByte_toNat (p : Prop) [Decidable p] : (boolByte p).toNat = if p then 1 else 0 := by
  by_cases h : p <;> simp [boolByte, h]

/-- A difference of bytes wraps as R127 and R129 write it. -/
theorem byte_sub_toNat (a b : Byte) : (a - b).toNat = (256 + a.toNat - b.toNat) % 256 := by
  have hb := b.isLt
  rw [BitVec.toNat_sub]
  omega

/-- Settles O15: the flag is the comparison that `ADD_FLAG_RULE` names, on the unwrapped sum. -/
theorem addWithFlag : Obligations.AddWithFlag := by
  unfold Obligations.AddWithFlag
  intro x y s
  refine exec_of_writeBoth rfl (BitVec.toNat_add _ _) ?_
  cases s.params.addFlagRule with
  | ltFF | geFF | gtFF => exact boolByte_toNat _

/-- Settles O16, by `byte_sub_toNat` and `boolByte_toNat`, for `V[x] - V[y]` and for `V[y] - V[x]`. -/
theorem subtractionsWithFlag : Obligations.SubtractionsWithFlag := by
  unfold Obligations.SubtractionsWithFlag
  intro x y s
  exact ⟨exec_of_writeBoth rfl (byte_sub_toNat _ _) (boolByte_toNat _),
    exec_of_writeBoth rfl (byte_sub_toNat _ _) (boolByte_toNat _)⟩

/-! ## Shifts -/

theorem shrFlag_toNat (a : Byte) : (shrFlag a).toNat = a.toNat % 2 :=
  Nat.and_one_is_mod a.toNat

/-- The raw mask leaves 0 or 0x80 in `VF` (R130). -/
theorem shlFlag_rawMask_toNat (a : Byte) : (shlFlag .rawMask a).toNat = 0x80 * (a.toNat / 0x80) := by
  have hmask : (shlFlag .rawMask a).toNat = a.toNat / 2 ^ 7 % 2 * 2 ^ 7 := by
    rw [← Nat.toNat_testBit]
    exact Nat.and_two_pow a.toNat 7
  have ha := a.isLt
  omega

theorem shlFlag_bit_toNat (a : Byte) : (shlFlag .bit a).toNat = a.toNat / 0x80 :=
  Nat.shiftRight_eq_div_pow a.toNat 7

/-- Settles O17: a shift right by one is a halving, and the mask 1 keeps the remainder. -/
theorem shiftRight : Obligations.ShiftRight := by
  unfold Obligations.ShiftRight
  intro x y s
  exact exec_of_writeBoth rfl (Nat.shiftRight_eq_div_pow (s.reg x).toNat 1) (shrFlag_toNat _)

/-- Settles O18: a shift left by one is a wrapped doubling, and `SHL_FLAG_RULE` says how the old bit 7 stands in the flag. -/
theorem shiftLeft : Obligations.ShiftLeft := by
  unfold Obligations.ShiftLeft
  intro x y s
  have hres : (s.reg x <<< 1).toNat = 2 * (s.reg x).toNat % 256 := by
    rw [BitVec.toNat_shiftLeft, Nat.shiftLeft_eq, Nat.mul_comm]
  refine exec_of_writeBoth rfl hres ?_
  cases s.params.shlFlagRule with
  | rawMask => exact shlFlag_rawMask_toNat _
  | bit => exact shlFlag_bit_toNat _

end Sys2Proof.Machine
end

section
/-! PROOFS. The index register and memory instructions (spec/42_index_memory.md). -/

namespace Sys2Proof.Machine

variable {s : State} {base a : Word} {j k : Nat}

/-! ## Offsets from one base -/

theorem offsetAddr_zero (base : Word) : offsetAddr base 0 = base := BitVec.add_zero base

/-- The bytes at different offsets below 4096 are different bytes of the array (R42, R150). -/
theorem effAddr_offsetAddr_ne (base : Word) (hj : j < 4096) (hk : k < 4096) (hne : k ≠ j) :
    effAddr (offsetAddr base k) ≠ effAddr (offsetAddr base j) := by
  rw [effAddr_offsetAddr, effAddr_offsetAddr]
  exact fun h => hne (effAddr_offset_inj hk hj h)

/-- A write at one offset leaves the byte at another offset as it was (R45, R150). -/
theorem State.memRead_memWrite_offset_ne (hwf : s.mem.wf) (b : Byte) (hj : j < 4096) (hk : k < 4096) (hne : k ≠ j)
    (ha : effAddr a = effAddr (offsetAddr base k)) : (s.memWrite (offsetAddr base j) b).memRead a = s.memRead a :=
  State.memRead_memWrite_ne hwf b (ha ▸ effAddr_offsetAddr_ne base hj hk hne)

/-! ## The three digits -/

theorem hundreds_toNat (b : Byte) : (hundreds b).toNat = b.toNat / 100 :=
  Nat.mod_eq_of_lt (Nat.lt_of_le_of_lt (Nat.div_le_self _ _) b.isLt)

theorem tens_toNat (b : Byte) : (tens b).toNat = b.toNat / 10 % 10 :=
  Nat.mod_eq_of_lt (Nat.lt_trans (Nat.mod_lt _ (by decide)) (by decide))

theorem ones_toNat (b : Byte) : (ones b).toNat = b.toNat % 10 :=
  Nat.mod_eq_of_lt (Nat.lt_trans (Nat.mod_lt _ (by decide)) (by decide))

/-- `LD B, Vx` is three writes, at the offsets 0, 1 and 2 from `I` (R154). -/
theorem exec_ldB (x : RegIx) (s : State) :
    exec (.ldB x) s = .next (((s.memWrite (offsetAddr s.i 0) (hundreds (s.reg x))).memWrite
      (offsetAddr s.i 1) (tens (s.reg x))).memWrite (offsetAddr s.i 2) (ones (s.reg x))) := by
  rw [offsetAddr_zero]
  rfl

/-- Settles O23: each digit is read back from its own write, the later writes being at other offsets. -/
theorem storesDecimalDigits : Obligations.StoresDecimalDigits := by
  unfold Obligations.StoresDecimalDigits
  intro x s hwf
  have hwf1 : (s.memWrite (offsetAddr s.i 0) (hundreds (s.reg x))).mem.wf := State.memWrite_wf hwf _ _
  have hwf2 : ((s.memWrite (offsetAddr s.i 0) (hundreds (s.reg x))).memWrite (offsetAddr s.i 1) (tens (s.reg x))).mem.wf :=
    State.memWrite_wf hwf1 _ _
  refine ⟨_, exec_ldB x s, fun a ha => ?_, fun a ha => ?_, fun a ha => ?_, fun _ _ => rfl, fun a ha => ?_, rfl⟩
  · rw [State.memRead_memWrite_offset_ne hwf2 _ (by decide) (by decide) (by decide) ha,
      State.memRead_memWrite_offset_ne hwf1 _ (by decide) (by decide) (by decide) ha,
      State.memRead_memWrite_same hwf _ ha, hundreds_toNat]
  · rw [State.memRead_memWrite_offset_ne hwf2 _ (by decide) (by decide) (by decide) ha,
      State.memRead_memWrite_same hwf1 _ ha, tens_toNat]
  · rw [State.memRead_memWrite_same hwf2 _ ha, ones_toNat]
  · obtain ⟨h0, h1, h2⟩ : effAddr a ≠ effAddr (offsetAddr s.i 0) ∧ effAddr a ≠ effAddr (offsetAddr s.i 1) ∧
        effAddr a ≠ effAddr (offsetAddr s.i 2) := by simpa using ha
    rw [State.memRead_memWrite_ne hwf2 _ h2, State.memRead_memWrite_ne hwf1 _ h1, State.memRead_memWrite_ne hwf _ h0]

/-! ## The block store and load -/

/-- The block store of `n` registers writes the bytes at the offsets below `n` only (R155). -/
theorem onlyMem_storeBlock (hwf : s.mem.wf) (n : Nat) :
    OnlyMem ((List.range n).map fun k => effAddr (offsetAddr s.i k)) s (storeBlock n s) := by
  refine ⟨fun r _ => storeBlock_reg n s r, fun a ha => storeBlock_memRead_out hwf fun k hk h => ha ?_, storeBlock_eq n s⟩
  exact List.mem_map.mpr ⟨k, List.mem_range.mpr hk, h.symm⟩

/-- Settles O24: `storeBlock_memRead_in` for the bytes written, `onlyMem_storeBlock` for the rest. -/
theorem storesRegistersBelowX : Obligations.StoresRegistersBelowX := by
  unfold Obligations.StoresRegistersBelowX
  intro x s hwf
  refine ⟨_, rfl, fun r hr a ha => ?_, onlyMem_storeBlock hwf x.val⟩
  rw [storeBlock_memRead_in hwf x.isLt.le hr ha, regNo_val]

/-- Settles O25: `loadBlock_reg` says what every register holds, `loadBlock_eq` that nothing else changes. -/
theorem loadsRegistersBelowX : Obligations.LoadsRegistersBelowX := by
  unfold Obligations.LoadsRegistersBelowX
  intro x s
  refine ⟨_, rfl, fun r hr => ?_, fun r hr => ?_, fun a => ?_, loadBlock_eq x.val s⟩
  · rw [loadBlock_reg x.isLt.le, if_pos hr]
  · rw [loadBlock_reg x.isLt.le, if_neg (Nat.not_lt.mpr hr)]
  · rw [loadBlock_eq]
    rfl

/-! ## The index register -/

theorem onlyIndex_setI (s : State) (w : Word) : OnlyIndex s (s.setI w) :=
  ⟨fun _ _ => rfl, fun _ => rfl, rfl⟩

/-- Five times a byte stays below 65536, so the 16-bit product never wraps (R153). -/
theorem zext16_mul_five_toNat (b : Byte) : (zext16 b * 5).toNat = b.toNat * 5 := by
  have hb := b.isLt
  rw [BitVec.toNat_mul, zext16_toNat (by decide)]
  change b.toNat * 5 % 65536 = _
  omega

/-- Settles O20: both are one write of `I`, of the zero-extended field and of the 16-bit sum. -/
theorem loadAndAddIndex : Obligations.LoadAndAddIndex := by
  unfold Obligations.LoadAndAddIndex
  refine ⟨fun nnn s => ⟨_, rfl, zext16_toNat (by decide) nnn, onlyIndex_setI s _⟩,
    fun x s => ⟨_, rfl, ?_, onlyIndex_setI s _⟩⟩
  rw [State.setI_i, BitVec.toNat_add, zext16_toNat (by decide)]

/-- Settles O21, by `zext16_mul_five_toNat`. -/
theorem glyphAddress : Obligations.GlyphAddress := by
  unfold Obligations.GlyphAddress
  intro x s
  exact ⟨_, rfl, zext16_mul_five_toNat (s.reg x), onlyIndex_setI s _⟩

end Sys2Proof.Machine
end

section
/-! PROOFS. The display controller, `CLS` and `DRW` (spec/43_display.md). -/

namespace Sys2Proof.Machine

/-! ## The display controller -/

/-- Coordinates that wrap to the same place name the same pixel (R171). -/
theorem Display.isLit_congr (d : Display) {px py cx cy : Nat} (hx : px % 64 = cx % 64) (hy : py % 32 = cy % 32) :
    d.isLit px py = d.isLit cx cy := by
  rw [← d.isLit_mod px py, hx, hy, d.isLit_mod]

/-- Every pixel after `Toggle` (R170). -/
theorem Display.isLit_toggle (d : Display) (cx cy px py : Nat) :
    (d.toggle cx cy).1.isLit px py =
      if px % 64 = cx % 64 ∧ py % 32 = cy % 32 then !d.isLit px py else d.isLit px py := by
  refine (d.isLit_setPix cx cy _ px py).trans ?_
  split
  next h => rw [d.isLit_congr h.1 h.2]
  next => rfl

/-- Settles O28: `Display.isLit_toggle`, at the pixel named and at every other. -/
theorem toggleInvertsOnePixel : Obligations.ToggleInvertsOnePixel := by
  unfold Obligations.ToggleInvertsOnePixel
  intro d cx cy
  refine ⟨rfl, fun px py hx hy => ?_, fun px py h => ?_⟩
  · have hsame := d.isLit_congr hx hy
    refine ⟨hsame, ?_⟩
    rw [d.isLit_toggle, if_pos ⟨hx, hy⟩, hsame]
    rfl
  · rw [d.isLit_toggle, if_neg h]

/-- Settles O29: every pixel is inverted twice or not at all. -/
theorem toggleTwiceRestores : Obligations.ToggleTwiceRestores := by
  unfold Obligations.ToggleTwiceRestores
  intro d cx cy
  refine Display.ext_isLit fun c r _ _ => ?_
  rw [Display.isLit_toggle, Display.isLit_toggle]
  split
  · exact Bool.not_not _
  · rfl

/-- Settles O30, by `Display.isLit_cleared`: `CLS` is one write of `FB`. -/
theorem clearScreen : Obligations.ClearScreen := by
  unfold Obligations.ClearScreen
  intro s
  exact ⟨_, rfl, Display.isLit_cleared, fun _ _ => rfl, fun _ => rfl, rfl⟩

/-! ## Which pixels a sprite covers -/

variable {s t : State} {base : Word} {x0 y0 n px py : Nat}

/-- What a sprite covers depends on memory only. -/
theorem spriteCovers_congr (hmem : SameMemory s t) (base : Word) (x0 y0 n c r : Nat) :
    SpriteCovers t base x0 y0 n c r ↔ SpriteCovers s base x0 y0 n c r := by
  simp only [SpriteCovers, hmem _]

/-- A sprite of fewer than 32 rows covers no pixel of the row below it. -/
theorem not_spriteCovers_next_row (hn : n < 32) (hy : py % 32 = (y0 + n) % 32) (c : Nat) :
    ¬ SpriteCovers s base x0 y0 n c (py % 32) := by
  rintro ⟨k, j, hk, -, -, -, hrow⟩
  omega

/-- A collision is a 1 bit of some row on a lit pixel: the rows and columns in place of the wrapped coordinates (R174). -/
theorem spriteCollides_iff :
    SpriteCollides s base x0 y0 n ↔
      ∃ k < n, ∃ j < 8, spriteBit (s.memRead (offsetAddr base k)) j = true ∧ s.fb.isLit (x0 + j) (y0 + k) = true := by
  constructor
  · rintro ⟨_, _, -, -, ⟨k, j, hk, hj, hb, rfl, rfl⟩, hlit⟩
    exact ⟨k, hk, j, hj, hb, (s.fb.isLit_mod _ _).symm.trans hlit⟩
  · rintro ⟨k, hk, j, hj, hb, hlit⟩
    exact ⟨_, _, Nat.mod_lt _ (by decide), Nat.mod_lt _ (by decide), ⟨k, j, hk, hj, hb, rfl, rfl⟩,
      (s.fb.isLit_mod _ _).trans hlit⟩

/-! ## The sprite loops, pixel by pixel -/

/-- One more row of a sprite, read from the memory the drawing began with. -/
theorem drawRows_succ_eq_drawCols (base : Word) (x0 y0 n : Nat) (s : State) :
    drawRows base x0 y0 (n + 1) s =
      drawCols (s.memRead (offsetAddr base n)) x0 (y0 + n) 8 (drawRows base x0 y0 n s) := by
  rw [drawRows_succ, drawRows_memRead, drawRow_eq_drawCols]

/-- A pixel the sprite does not cover. -/
theorem drawRows_isLit_of_not_covers (h : ¬ SpriteCovers s base x0 y0 n (px % 64) (py % 32)) :
    (drawRows base x0 y0 n s).fb.isLit px py = s.fb.isLit px py := by
  induction n with
  | zero => rfl
  | succ n ih =>
    rw [drawRows_succ_eq_drawCols, drawCols_isLit_out]
    · exact ih fun ⟨k, j, hk, hcov⟩ => h ⟨k, j, by omega, hcov⟩
    · exact fun j hj hb hxy => h ⟨n, j, by omega, hj, hb, hxy.1.symm, hxy.2.symm⟩

/-- A pixel the sprite covers is inverted once: the rows of a sprite are different rows of the display. -/
theorem drawRows_isLit_of_covers (hn : n ≤ 32) (h : SpriteCovers s base x0 y0 n (px % 64) (py % 32)) :
    (drawRows base x0 y0 n s).fb.isLit px py = !s.fb.isLit px py := by
  induction n with
  | zero =>
    obtain ⟨k, -, hk, -⟩ := h
    omega
  | succ n ih =>
    obtain ⟨k, j, hk, hj, hb, hx, hy⟩ := h
    rw [drawRows_succ_eq_drawCols]
    obtain rfl | hlt : k = n ∨ k < n := by omega
    · rw [drawCols_isLit_in _ _ _ _ le_rfl _ hj hb hx.symm hy.symm,
        drawRows_isLit_of_not_covers (not_spriteCovers_next_row (by omega) hy.symm _)]
    · rw [drawCols_isLit_out _ _ _ _ _ fun _ _ _ hxy => by omega]
      exact ih (by omega) ⟨k, j, hlt, hj, hb, hx, hy⟩

/-- `VF` after a sprite: 1 after a collision, else as before. -/
theorem drawRows_flag (hn : n ≤ 32) :
    (SpriteCollides s base x0 y0 n → (drawRows base x0 y0 n s).reg flagReg = 1) ∧
    (¬ SpriteCollides s base x0 y0 n → (drawRows base x0 y0 n s).reg flagReg = s.reg flagReg) := by
  induction n with
  | zero => exact ⟨fun ⟨_, _, _, _, ⟨_, _, hk, _⟩, _⟩ => absurd hk (Nat.not_lt_zero _), fun _ => rfl⟩
  | succ n ih =>
    obtain ⟨ihhit, ihmiss⟩ := ih (by omega)
    have hrow (j : Nat) :
        (drawRows base x0 y0 n s).fb.isLit (x0 + j) (y0 + n) = s.fb.isLit (x0 + j) (y0 + n) :=
      drawRows_isLit_of_not_covers (not_spriteCovers_next_row (by omega) rfl _)
    obtain ⟨hhit, hmiss⟩ :=
      drawCols_flag (s.memRead (offsetAddr base n)) x0 (y0 + n) 8 le_rfl (drawRows base x0 y0 n s)
    simp only [hrow] at hhit hmiss
    rw [spriteCollides_iff, Nat.exists_lt_succ_right, ← spriteCollides_iff, drawRows_succ_eq_drawCols]
    by_cases hlast : ∃ j < 8, spriteBit (s.memRead (offsetAddr base n)) j = true ∧ s.fb.isLit (x0 + j) (y0 + n) = true
    · exact ⟨fun _ => hhit hlast, fun h => absurd (.inr hlast) h⟩
    · have hkeep := hmiss fun j hj hb => Bool.eq_false_iff.mpr fun hlit => hlast ⟨j, hj, hb, hlit⟩
      rw [hkeep]
      exact ⟨fun h => ihhit (h.resolve_right hlast), fun h => ihmiss fun hc => h (.inl hc)⟩

/-! ## `DRW` -/

/-- Settles O31: the sprite loops started with `VF` cleared, which changes neither memory nor the display. -/
theorem drawInvertsCoveredPixels : Obligations.DrawInvertsCoveredPixels := by
  unfold Obligations.DrawInvertsCoveredPixels
  intro x y n s hn
  have hflag := drawRows_flag (s := s.setReg flagReg 0) (base := s.i) (x0 := (s.reg x).toNat) (y0 := (s.reg y).toNat)
    (n := n) (by omega)
  rw [State.reg_setReg_same] at hflag
  refine ⟨_, rfl, fun c r hc hr => ⟨fun h => ?_, fun h => ?_⟩, hflag.1, hflag.2, fun q hq => ?_, fun a => ?_, ?_⟩
  · refine drawRows_isLit_of_covers (by omega) ?_
    rwa [Nat.mod_eq_of_lt hc, Nat.mod_eq_of_lt hr]
  · refine drawRows_isLit_of_not_covers ?_
    rwa [Nat.mod_eq_of_lt hc, Nat.mod_eq_of_lt hr]
  · have hne : q ≠ flagReg := by simpa using hq
    rw [drawRows_reg _ _ _ _ _ hne, State.reg_setReg_ne s hne]
  · exact drawRows_memRead _ _ _ _ _ a
  · exact drawRows_eq _ _ _ _ _

/-- Settles O32: both draws are those of `drawInvertsCoveredPixels` and cover the same pixels, so the second inverts back what the
first inverted, and meets a lit pixel where the first lit one. -/
theorem drawTwiceRestores : Obligations.DrawTwiceRestores := by
  unfold Obligations.DrawTwiceRestores
  intro x y n s hn hx hy
  obtain ⟨t, ht, hfirst, -, -, hregs, hmem, hframe⟩ := drawInvertsCoveredPixels x y n s hn
  obtain ⟨u, hu, hsecond, hhit, hmiss, -, -, -⟩ := drawInvertsCoveredPixels x y n t hn
  have hi : t.i = s.i := by rw [hframe]
  have hcov := spriteCovers_congr hmem s.i (s.reg x).toNat (s.reg y).toNat n
  rw [hi, hregs x (by simpa using hx), hregs y (by simpa using hy)] at hsecond hhit hmiss
  simp only [hcov] at hsecond
  refine ⟨t, u, ht, hu, Display.ext_isLit fun c r hc hr => ?_, fun hone => ?_, ?_⟩
  · obtain ⟨hin, hout⟩ := hfirst c r hc hr
    obtain ⟨hin', hout'⟩ := hsecond c r hc hr
    by_cases h : SpriteCovers s s.i (s.reg x).toNat (s.reg y).toNat n c r
    · rw [hin' h, hin h, Bool.not_not]
    · rw [hout' h, hout h]
  · have hcollides : SpriteCollides t s.i (s.reg x).toNat (s.reg y).toNat n := by
      by_contra hno
      exact absurd ((hmiss hno).symm.trans hone) (by decide)
    obtain ⟨c, r, hc, hr, h, hlit⟩ := hcollides
    have hinv := (hfirst c r hc hr).1 ((hcov c r).mp h)
    exact ⟨c, r, hc, hr, by simpa [hlit] using hinv, hlit⟩
  · rintro ⟨c, r, hc, hr, hdark, hlit⟩
    refine hhit ⟨c, r, hc, hr, (hcov c r).mpr ?_, hlit⟩
    by_contra h
    exact Bool.false_ne_true (hdark.symm.trans (((hfirst c r hc hr).2 h).symm.trans hlit))

end Sys2Proof.Machine
end

section
/-! PROOFS. The key and timer instructions, and the tick that a wait for a key ends (spec/44_keys_timers.md). -/

namespace Sys2Proof.Machine

variable {s : State}

/-! ## The wait for a key -/

/-- A CORE that awaits a key is not running (R194). -/
theorem State.running_awaitKey (s : State) (x : RegIx) : (s.awaitKey x).running = false :=
  Bool.and_false _

/-- The state a step fetches in differs from the state before it in two of the driver's own fields at most (assumptions 4, 5). -/
theorem State.fetchState_driver_fields (s : State) : ∃ h b, s.fetchState = { s with host := h, loadable := b } := by
  unfold State.fetchState
  split
  · exact ⟨_, _, rfl⟩
  · exact ⟨_, _, rfl⟩

/-- A step that fetches `LD Vx, K` sets the wait on `PC + 2`, and leaves no step of the tick and no countdown (R194, R225 b). -/
theorem step_of_awaitKey {x : RegIx} (h : s.readyToFetch = true) (hi : decodeWord s.fetch = .ok (.ldVxK x)) :
    step s = .next { (s.fetchState.setPc (s.pc + 2)).awaitKey x with left := 0 } := by
  rw [step_of_decodes h hi]
  exact congrArg Host.Outcome.next (closeStep_stopped (State.running_awaitKey _ x))

/-- Settles O52, by `step_of_awaitKey`: of what the claim speaks of, fetching changes nothing. -/
theorem awaitKeyEndsTheTick : Obligations.AwaitKeyEndsTheTick := by
  unfold Obligations.AwaitKeyEndsTheTick
  intro s x hready hdecode
  have hstep := step_of_awaitKey hready hdecode
  obtain ⟨host, loadable, hfetch⟩ := s.fetchState_driver_fields
  rw [hfetch] at hstep
  exact ⟨_, hstep, rfl, rfl, rfl, rfl, rfl, rfl, fun _ _ => rfl, fun _ => rfl⟩

/-- Settles O34: the instruction is `awaitKey`, which writes `PAUSED` and `WAITREG`. -/
theorem awaitKeyPauses : Obligations.AwaitKeyPauses := by
  unfold Obligations.AwaitKeyPauses
  intro x s
  exact ⟨s.awaitKey x, rfl, rfl, rfl, fun _ _ => rfl, fun _ => rfl, rfl⟩

/-! ## The key skips -/

/-- A byte from 0 to 15 is the number of a key (R193). -/
theorem State.isPressed_of_key {b : Byte} {k : Fin 16} (h : b.toNat = k.val) : s.isPressed b = s.keys[k] := by
  have hb : b.toNat < 16 := h ▸ k.isLt
  rw [State.isPressed, dif_pos hb]
  simp only [h, Fin.getElem_fin]

/-- A byte of 16 or more is no key: it is not reduced to its low nibble (R193). -/
theorem State.isPressed_of_no_key {b : Byte} (h : 16 ≤ b.toNat) : s.isPressed b = false :=
  dif_neg (Nat.not_lt.mpr h)

/-- A skip on the negation adds the further 2 where the condition fails (R100, R191). -/
theorem skipIf_not_pc (c : Bool) (s : State) : (skipIf (!c) s).pc = if c then s.pc else s.pc + 2 := by
  cases c with
  | true => rfl
  | false => rfl

/-- Settles O33, by `isPressed_of_key` and `isPressed_of_no_key`: both are skips on the key whose number is the register's byte. -/
theorem keySkips : Obligations.KeySkips := by
  unfold Obligations.KeySkips
  intro x s
  refine ⟨⟨_, rfl, onlyPc_skipIf _ s, fun k hk => ?_, fun hno => ?_⟩, ⟨_, rfl, onlyPc_skipIf _ s, fun k hk => ?_, fun hno => ?_⟩⟩
  · rw [skipIf_eq, State.setPc_pc, State.isPressed_of_key hk]
  · rw [State.isPressed_of_no_key hno]
    rfl
  · rw [skipIf_not_pc, State.isPressed_of_key hk]
  · rw [State.isPressed_of_no_key hno]
    rfl

/-! ## The timer moves -/

/-- Settles O35: each of the three is one write, of `V[x]`, of `DT` or of `ST`. -/
theorem timerMoves : Obligations.TimerMoves := by
  unfold Obligations.TimerMoves
  intro x s
  exact ⟨⟨_, rfl, State.reg_setReg_same s x s.dt, onlyRegs_setReg s x s.dt⟩,
    ⟨s.setDT (s.reg x), rfl, rfl, fun _ _ => rfl, fun _ => rfl, rfl⟩,
    ⟨s.setST (s.reg x), rfl, rfl, fun _ _ => rfl, fun _ => rfl, rfl⟩⟩

end Sys2Proof.Machine
end

section
/-! PROOFS. The fatal entry and the fatal state, the tick as a run of steps, and the key events of the host (spec/60_exceptions.md). -/

namespace Sys2Proof.Machine

variable {s t : State} {k : Nat} {r : FatalRecord}

/-! ## One fetched instruction -/

/-- `Step()` of R70: the instruction that was fetched, or the fatal entry `DecodeError`. -/
theorem stepInstr_cases (h : stepInstr s = .next t) :
    (∃ i, decodeWord s.fetch = .ok i ∧ exec i s.advancePc = .next t) ∨
    ((∃ e, decodeWord s.fetch = .error e) ∧ t = s.advancePc.raiseFatal .decodeError s.fetch s.pc) := by
  unfold stepInstr at h
  split at h
  · next i hi => exact .inl ⟨i, hi, h⟩
  · next e he =>
    cases h
    exact .inr ⟨⟨e, he⟩, rfl⟩

theorem stepInstr_completes (s : State) : ∃ t, stepInstr s = .next t := by
  unfold stepInstr
  split
  · exact exec_completes _ _
  · exact ⟨_, rfl⟩

/-- `Step()` leaves the driver's own fields alone (assumptions 4, 5). -/
theorem stepInstr_keeps_driver_fields (h : stepInstr s = .next t) :
    t.left = s.left ∧ t.host = s.host ∧ t.loadable = s.loadable := by
  obtain ⟨i, -, hexec⟩ | ⟨-, rfl⟩ := stepInstr_cases h
  · obtain ⟨-, -, hfields⟩ := exec_keeps_driver_fields hexec
    exact hfields
  · exact ⟨rfl, rfl, rfl⟩

/-- `Step()` does not read the driver's own fields (assumptions 4, 5). -/
theorem stepInstr_driver_fields (hs : stepInstr s = .next t) (h : List HostEvent) (l : Nat) (b : Bool) :
    stepInstr { s with host := h, left := l, loadable := b } = .next { t with host := h, left := l, loadable := b } := by
  have hfetch : ({ s with host := h, left := l, loadable := b } : State).fetch = s.fetch := rfl
  obtain ⟨i, hi, hexec⟩ | ⟨⟨e, he⟩, rfl⟩ := stepInstr_cases hs
  · rw [stepInstr, hfetch, hi]
    exact (unseen_driver_fields h l b).exec (fun _ _ => rfl) (fun _ _ => rfl) (fun _ _ _ => rfl) hexec
  · rw [stepInstr, hfetch, he]
    rfl

/-- `Step()` with another script. -/
theorem stepInstr_withHost (hs : stepInstr s = .next t) (h : List HostEvent) :
    stepInstr { s with host := h } = .next { t with host := h } := by
  obtain ⟨hleft, -, hload⟩ := stepInstr_keeps_driver_fields hs
  rw [hleft, hload]
  exact stepInstr_driver_fields hs h s.left s.loadable

/-- `Step()` at another place in the tick. -/
theorem stepInstr_withLeft (hs : stepInstr s = .next t) (l : Nat) :
    stepInstr { s with left := l } = .next { t with left := l } := by
  obtain ⟨-, hhost, hload⟩ := stepInstr_keeps_driver_fields hs
  rw [hhost, hload]
  exact stepInstr_driver_fields hs s.host l s.loadable

theorem quantumStep_of_stepInstr (h : stepInstr s = .next t) (k : Nat) : quantumStep k s = .next (closeStep k t) := by
  rw [quantumStep, h, andThen_next]

theorem State.running_of_paused (h : s.paused = true) : s.running = false := by
  rw [State.running, h]
  exact Bool.and_false _

/-! ## The close of a step -/

/-- The close of a step writes the timers and the steps left only (R226; assumption 4). -/
theorem closeStep_eq (k : Nat) (s : State) :
    closeStep k s = { s with dt := (closeStep k s).dt, st := (closeStep k s).st, left := (closeStep k s).left } := by
  unfold closeStep
  split
  · cases k with
    | zero => rfl
    | succ n => rfl
  · rfl

theorem closeStep_fault (k : Nat) (s : State) : (closeStep k s).fault = s.fault := by
  rw [closeStep_eq]

theorem closeStep_host (k : Nat) (s : State) : (closeStep k s).host = s.host := by
  rw [closeStep_eq]

/-- The close of a step does not read the script (R223). -/
theorem closeStep_withHost (k : Nat) (s : State) (h : List HostEvent) :
    closeStep k { s with host := h } = { closeStep k s with host := h } := by
  have hrun : ({ s with host := h } : State).running = s.running := rfl
  unfold closeStep
  rw [hrun]
  split
  · cases k with
    | zero => rfl
    | succ n => rfl
  · rfl

/-- The close of a step sets the steps left, whatever they were. -/
theorem closeStep_withLeft (k : Nat) (s : State) (l : Nat) : closeStep k { s with left := l } = closeStep k s :=
  rfl

theorem State.withLeft_zero (hleft : s.left = 0) : { s with left := 0 } = s := by
  rw [← hleft]

theorem closeStep_between (hleft : s.left = 0) (hstop : s.running = false) : closeStep k s = s := by
  rw [closeStep_stopped hstop, State.withLeft_zero hleft]

/-- Settles O45, by the three lemmas on `closeStep`; a timer's decrement is `decrement_toNat`. -/
theorem tickClosesAfterAnInstruction : Obligations.TickClosesAfterAnInstruction := by
  unfold Obligations.TickClosesAfterAnInstruction
  intro k s
  refine ⟨closeStep_stopped, fun hrun hpos => ?_, fun hrun hzero => ?_⟩
  · obtain ⟨n, rfl⟩ := Nat.exists_eq_succ_of_ne_zero hpos.ne'
    exact closeStep_more hrun
  · subst hzero
    exact ⟨_, closeStep_last hrun, rfl, decrement_toNat s.dt, decrement_toNat s.st, rfl⟩

/-! ## One move, case by case -/

theorem step_in_tick {n : Nat} (hleft : s.left = n + 1) (hrun : s.running = true) : step s = quantumStep n s := by
  simp only [step, driverStep, hleft, hrun, if_true]

theorem step_in_tick_stopped {n : Nat} (hleft : s.left = n + 1) (hstop : s.running = false) :
    step s = .next { s with left := 0 } := by
  simp only [step, driverStep, hleft, hstop, Bool.false_eq_true, if_false]

theorem step_of_event {e : HostEvent} {rest : List HostEvent} (hleft : s.left = 0) (hhost : s.host = e :: rest) :
    step s = transact e { s with host := rest } := by
  simp only [step, driverStep, hleft, hhost]

theorem step_of_empty_script (hleft : s.left = 0) (hhost : s.host = []) (hnone : s.fault = none) : step s = startTick s := by
  simp only [step, driverStep, hleft, hhost, hnone]

theorem step_of_halted (hleft : s.left = 0) (hhost : s.host = []) (hf : s.fault = some r) : step s = .fault (.halted r) := by
  simp only [step, driverStep, hleft, hhost, hf]

/-! ## The fatal entry -/

/-- Settles O47, by `step_of_illegal`: fetching changes two of the driver's own fields at most. -/
theorem illegalWordIsFatal : Obligations.IllegalWordIsFatal := by
  unfold Obligations.IllegalWordIsFatal
  intro s e hready hillegal
  have hstep := step_of_illegal hready hillegal
  obtain ⟨host, loadable, hfetch⟩ := s.fetchState_driver_fields
  rw [hfetch] at hstep
  exact ⟨_, hstep, rfl, rfl, rfl, rfl⟩

/-- An instruction that sets the latch is the fatal entry with its own word and address, and nothing else (R212). -/
theorem exec_fatal {i : Instr} (hnone : s.fault = none) (h : exec i s = .next t) (hr : t.fault = some r) :
    ∃ c, t = s.raiseFatal c (encode i) s.ownAddr := by
  cases exec_footprint h with
  | underflow | overflow => exact ⟨_, rfl⟩
  | registers | transfer | digits | blockStore | clear | draw | pop | push | loadIndex | addIndex | glyphIndex | await | delayTimer
  | soundTimer => exact absurd (hnone.symm.trans hr) (by simp)

theorem State.advancePc_ownAddr (s : State) : s.advancePc.ownAddr = s.pc :=
  BitVec.add_sub_cancel s.pc 2

/-- A fetched word that sets the latch, legal or not, is recorded with its address (R211, R212). -/
theorem stepInstr_fatal (hnone : s.fault = none) (h : stepInstr s = .next t) (hr : t.fault = some r) :
    ∃ c, t = s.advancePc.raiseFatal c s.fetch s.pc := by
  obtain ⟨i, hi, hexec⟩ | ⟨-, rfl⟩ := stepInstr_cases h
  · obtain ⟨c, rfl⟩ := exec_fatal (s := s.advancePc) hnone hexec hr
    obtain ⟨-, hword⟩ := encode_of_decodeWord hi
    rw [hword, State.advancePc_ownAddr]
    exact ⟨c, rfl⟩
  · exact ⟨_, rfl⟩

/-- The step of a tick that sets the latch leaves no step of the tick and no countdown (R225 d). -/
theorem quantumStep_fatal (hnone : s.fault = none) (h : quantumStep k s = .next t) (hr : t.fault = some r) :
    ∃ c, t = { s.advancePc.raiseFatal c s.fetch s.pc with left := 0 } := by
  obtain ⟨u, hu, hclose⟩ := andThen_eq_next h
  cases hclose
  obtain ⟨c, rfl⟩ := stepInstr_fatal hnone hu ((closeStep_fault k u).symm.trans hr)
  exact ⟨c, closeStep_stopped rfl⟩

/-! ## The key events -/

theorem keyPress_ignored (h : s.fault ≠ none ∨ 16 ≤ k) : keyPress k s = s := by
  unfold keyPress
  split
  · rfl
  · next hf =>
    have hk : 16 ≤ k := h.resolve_left (by simpa using hf)
    exact dif_neg (Nat.not_lt.mpr hk)

theorem keyPress_key (hnone : s.fault = none) (k : Fin 16) : keyPress k.val s = completeWait k (s.setKey k true) := by
  rw [keyPress, hnone]
  exact dif_pos k.isLt

theorem keyRelease_ignored (h : s.fault ≠ none ∨ 16 ≤ k) : keyRelease k s = s := by
  unfold keyRelease
  split
  · rfl
  · next hf =>
    have hk : 16 ≤ k := h.resolve_left (by simpa using hf)
    exact dif_neg (Nat.not_lt.mpr hk)

theorem keyRelease_key (hnone : s.fault = none) (k : Fin 16) : keyRelease k.val s = s.setKey k false := by
  rw [keyRelease, hnone]
  exact dif_pos k.isLt

theorem completeWait_fault (k : Fin 16) (s : State) : (completeWait k s).fault = s.fault := by
  cases hw : s.waitReg with
  | none => rw [completeWait_none hw]
  | some x => rw [completeWait_some hw]; rfl

theorem setKey_keys_same (s : State) (k : Fin 16) (b : Bool) : (s.setKey k b).keys[k] = b :=
  Vector.getElem_set_self k.isLt

theorem setKey_keys_ne (s : State) {k j : Fin 16} (h : j ≠ k) (b : Bool) : (s.setKey k b).keys[j] = s.keys[j] :=
  Vector.getElem_set_ne k.isLt j.isLt fun hkj => h (Fin.ext hkj.symm)

/-- Settles O54: the key is set first, and then the wait, if there is one, is completed with one register write. -/
theorem keyPressCompletesTheWait : Obligations.KeyPressCompletesTheWait := by
  unfold Obligations.KeyPressCompletesTheWait
  refine ⟨fun s k hnone => ?_, fun s k h => congrArg _ (keyPress_ignored h)⟩
  have hpress : transact (.keyPress k.val) s = .next (completeWait k (s.setKey k true)) := congrArg _ (keyPress_key hnone k)
  have hkey := setKey_keys_same s k true
  have hother (j : Fin 16) (hj : j ≠ k) := setKey_keys_ne s hj true
  cases hw : s.waitReg with
  | none =>
    rw [completeWait_none (s := s.setKey k true) hw] at hpress
    exact ⟨_, hpress, hkey, hother, by simp, fun _ => ⟨rfl, hw, fun _ _ => rfl⟩, fun _ => rfl, rfl⟩
  | some x =>
    rw [completeWait_some (s := s.setKey k true) hw] at hpress
    refine ⟨_, hpress, hkey, hother, fun y hy => ?_, by simp, fun _ => rfl, rfl⟩
    obtain rfl : x = y := Option.some.inj hy
    refine ⟨?_, rfl, rfl, sameRegsBut_setReg (s.setKey k true) x _⟩
    rw [State.resume_reg, State.reg_setReg_same, BitVec.toNat_ofNat]
    omega

/-- Settles O55: a release is one write of a key, or nothing. -/
theorem keyReleaseClearsTheKey : Obligations.KeyReleaseClearsTheKey := by
  unfold Obligations.KeyReleaseClearsTheKey
  refine ⟨fun s k hnone => ?_, fun s k h => congrArg _ (keyRelease_ignored h)⟩
  exact ⟨_, congrArg Host.Outcome.next (keyRelease_key hnone k), setKey_keys_same s k false, fun j hj => setKey_keys_ne s hj false,
    fun _ _ => rfl, fun _ => rfl, rfl⟩

/-! ## Which steps set the latch -/

/-- No transaction but a tick sets the latch. -/
theorem transact_keeps_no_fault {e : HostEvent} (hne : e ≠ .tick) (hnone : s.fault = none) (h : transact e s = .next t) :
    t.fault = none := by
  cases e with
  | reset => cases h; rfl
  | load image =>
    obtain ⟨-, -, rfl⟩ := load_eq_next h
    rw [placeImage_eq]
    exact hnone
  | tick => exact absurd rfl hne
  | keyPress k =>
    cases h
    by_cases hk : k < 16
    · rw [keyPress_key hnone ⟨k, hk⟩, completeWait_fault]
      exact hnone
    · rwa [keyPress_ignored (.inr (Nat.not_lt.mp hk))]
  | keyRelease k =>
    cases h
    by_cases hk : k < 16
    · rw [keyRelease_key hnone ⟨k, hk⟩]
      exact hnone
    · rwa [keyRelease_ignored (.inr (Nat.not_lt.mp hk))]

/-- A tick that sets the latch had a step to take. -/
theorem startTick_fatal (hnone : s.fault = none) (h : startTick s = .next t) (hr : t.fault ≠ none) :
    s.running = true ∧ 0 < s.params.ipf := by
  obtain ⟨⟨r, hsome⟩, -⟩ | ⟨-, -, he⟩ | ⟨-, -, -, he⟩ | ⟨n, -, hp, hipf, -⟩ := startTick_cases s
  · simp [hnone] at hsome
  · rw [he] at h
    cases h
    exact absurd hnone hr
  · rw [he] at h
    cases h
    exact absurd hnone hr
  · exact ⟨(State.running_iff s).mpr ⟨hnone, hp⟩, by omega⟩

/-- Only a step that fetches sets the latch (R211). -/
theorem readyToFetch_of_fatal (hnone : s.fault = none) (h : step s = .next t) (hr : t.fault ≠ none) : s.readyToFetch = true := by
  change driverStep s = _ at h
  rw [State.readyToFetch_iff]
  obtain ⟨n, hleft, hrun, -⟩ | ⟨n, -, -, he⟩ | ⟨e, rest, -, hhost, he⟩ | ⟨-, hhost, -, he⟩ | ⟨r, -, -, hsome, -⟩ :=
    driverStep_cases s
  · exact ⟨hrun, .inl (by omega)⟩
  · rw [he] at h
    cases h
    exact absurd hnone hr
  · rw [he] at h
    by_cases htick : e = .tick
    · subst htick
      obtain ⟨hrun, hipf⟩ := startTick_fatal (s := { s with host := rest }) hnone h hr
      exact ⟨hrun, .inr ⟨by simp [State.tickNext, hhost], hipf⟩⟩
    · exact absurd (transact_keeps_no_fault (s := { s with host := rest }) htick hnone h) hr
  · rw [he] at h
    obtain ⟨hrun, hipf⟩ := startTick_fatal hnone h hr
    exact ⟨hrun, .inr ⟨by simp [State.tickNext, hhost], hipf⟩⟩
  · simp [hnone] at hsome

/-- Settles O48: only a step that fetches sets the latch (`readyToFetch_of_fatal`), and what it leaves is `quantumStep_fatal`. -/
theorem fatalIsPrecise : Obligations.FatalIsPrecise := by
  unfold Obligations.FatalIsPrecise
  intro s t r hnone hstep hr
  have hready : s.readyToFetch = true := readyToFetch_of_fatal hnone hstep (by simp [hr])
  rw [step_of_readyToFetch hready] at hstep
  obtain ⟨host, loadable, hfetch⟩ := s.fetchState_driver_fields
  rw [hfetch] at hstep
  obtain ⟨c, rfl⟩ := quantumStep_fatal (s := { s with host := host, loadable := loadable }) hnone hstep hr
  cases hr
  exact ⟨hready, rfl, rfl, rfl⟩

/-! ## The fatal state -/

theorem startTick_of_fault (h : s.fault = some r) : startTick s = .next s := by
  simp [startTick, h]

/-- In the fatal state a tick and a key event change nothing (R212, R218). -/
theorem transact_of_fault {e : HostEvent} (h : s.fault = some r)
    (he : e = .tick ∨ (∃ k, e = .keyPress k) ∨ ∃ k, e = .keyRelease k) : transact e s = .next s := by
  have hf : s.fault ≠ none := by simp [h]
  obtain rfl | ⟨k, rfl⟩ | ⟨k, rfl⟩ := he
  · exact startTick_of_fault h
  · exact congrArg _ (keyPress_ignored (.inl hf))
  · exact congrArg _ (keyRelease_ignored (.inl hf))

theorem run_succ (h : step s = .next t) (k : Nat) : core.run (k + 1) s = core.run k t := by
  have hstep : core.step s = .next t := h
  simp only [Host.Core.run, hstep]

/-- Ticks and key events sent in the fatal state are taken off the script one a step, and that is all (R212). -/
theorem run_of_fault (s : State) (hleft : s.left = 0) (hf : s.fault = some r) (l : List HostEvent)
    (hl : ∀ e ∈ l, e = .tick ∨ (∃ k, e = .keyPress k) ∨ ∃ k, e = .keyRelease k) :
    core.run l.length { s with host := l } = .next { s with host := [] } := by
  induction l with
  | nil => rfl
  | cons e rest ih =>
    have hstep : step { s with host := e :: rest } = .next { s with host := rest } :=
      (step_of_event (s := { s with host := e :: rest }) hleft rfl).trans
        (transact_of_fault (s := { s with host := rest }) hf (hl e List.mem_cons_self))
    rw [List.length_cons, run_succ hstep]
    exact ih fun e' he' => hl e' (List.mem_cons_of_mem e he')

/-- Settles O49, by `run_of_fault` along the script. -/
theorem fatalStateIsTerminal : Obligations.FatalStateIsTerminal := by
  unfold Obligations.FatalStateIsTerminal
  intro s r hleft hf hevents
  exact ⟨run_of_fault s hleft hf s.host hevents, step_of_halted (s := { s with host := [] }) hleft rfl hf⟩

/-! ## The tick as one transaction -/

theorem quantumLoop_stopped (h : s.running = false) (n : Nat) : quantumLoop n s = .next s := by
  induction n with
  | zero => rfl
  | succ n ih => rw [quantumLoop, h, if_neg Bool.false_ne_true, andThen_next, ih]

theorem quantumLoop_succ (hrun : s.running = true) (h : stepInstr s = .next t) (n : Nat) :
    quantumLoop (n + 1) s = quantumLoop n t := by
  rw [quantumLoop, if_pos hrun, h, andThen_next]

theorem tickEnd_stopped (h : s.running = false) : tickEnd s = s := by
  rw [tickEnd, h, if_neg Bool.false_ne_true]

theorem tickEnd_running (h : s.running = true) : tickEnd s = s.countdown :=
  if_pos h

theorem tick_of_no_fault (h : s.fault = none) :
    tick s = andThen (quantumLoop s.params.ipf s) (fun t => .next (tickEnd t)) := by
  rw [tick, h]
  rfl

/-- The last step of a tick closes as R224 ends it. -/
theorem closeStep_zero (hleft : s.left = 0) : closeStep 0 s = tickEnd s := by
  cases hrun : s.running with
  | false => rw [closeStep_between hleft hrun, tickEnd_stopped hrun]
  | true =>
    rw [closeStep_last hrun, tickEnd_running hrun]
    exact State.withLeft_zero (s := s.countdown) hleft

/-- With `n` steps of the tick left, the CORE comes in at most `n` steps to where `n` further iterations of the loop of R224 and the
countdown bring it. -/
theorem run_closeStep (n : Nat) (s : State) (hleft : s.left = 0) :
    ∃ j ≤ n, core.run j (closeStep n s) = andThen (quantumLoop n s) (fun t => .next (tickEnd t)) := by
  induction n generalizing s with
  | zero => exact ⟨0, le_rfl, congrArg Host.Outcome.next (closeStep_zero hleft)⟩
  | succ n ih =>
    cases hrun : s.running with
    | false =>
      refine ⟨0, Nat.zero_le _, ?_⟩
      rw [closeStep_between hleft hrun, quantumLoop_stopped hrun, andThen_next, tickEnd_stopped hrun]
      rfl
    | true =>
      obtain ⟨t, ht⟩ := stepInstr_completes s
      obtain ⟨hleft', -, -⟩ := stepInstr_keeps_driver_fields ht
      obtain ⟨j, hj, hrest⟩ := ih t (hleft'.trans hleft)
      have hstep : step { s with left := n + 1 } = .next (closeStep n t) := by
        rw [step_in_tick (s := { s with left := n + 1 }) rfl hrun, quantumStep_of_stepInstr (stepInstr_withLeft ht (n + 1)),
          closeStep_withLeft]
      refine ⟨j + 1, Nat.succ_le_succ hj, ?_⟩
      rw [closeStep_more hrun, run_succ hstep, hrest, quantumLoop_succ hrun ht]

/-- A tick in which no step is taken is its end (R225 a, f). -/
theorem tick_without_step (hnone : s.fault = none) (h : s.running = false ∨ s.params.ipf = 0) : tick s = .next (tickEnd s) := by
  rw [tick_of_no_fault hnone]
  obtain hstop | hzero := h
  · rw [quantumLoop_stopped hstop, andThen_next]
  · rw [hzero]
    rfl

/-- A tick whose first step is taken is the rest of the loop and its end (R224). -/
theorem tick_with_step {n : Nat} (hrun : s.running = true) (hipf : s.params.ipf = n + 1) (h : stepInstr s = .next t) :
    tick s = andThen (quantumLoop n t) (fun u => .next (tickEnd u)) := by
  rw [tick_of_no_fault ((State.running_iff s).mp hrun).1, hipf, quantumLoop_succ hrun h]

/-- The move that begins a tick, and at most `IPF - 1` steps after it, come to where `Tick()` as one transaction ends: a tick without a
step is over in that move, and the first step of any other is closed with `IPF - 1` steps left, from where `run_closeStep` goes on. -/
theorem run_startTick (s : State) (hleft : s.left = 0) (hnone : s.fault = none) :
    ∃ t j, startTick s = .next t ∧ j + 1 ≤ max 1 s.params.ipf ∧ core.run j t = tick { s with loadable := false } := by
  obtain ⟨⟨r, hsome⟩, -⟩ | ⟨-, hpaused, he⟩ | ⟨-, hpaused, hipf, he⟩ | ⟨n, -, hpaused, hipf, he⟩ := startTick_cases s
  · simp [hnone] at hsome
  · have hstop : ({ s with loadable := false } : State).running = false := State.running_of_paused hpaused
    have htick := tick_without_step (s := { s with loadable := false }) hnone (.inl hstop)
    rw [tickEnd_stopped hstop] at htick
    exact ⟨_, 0, he, Nat.le_max_left 1 _, htick.symm⟩
  · have hrun : ({ s with loadable := false } : State).running = true := (State.running_iff _).mpr ⟨hnone, hpaused⟩
    have htick := tick_without_step (s := { s with loadable := false }) hnone (.inr hipf)
    rw [tickEnd_running hrun] at htick
    exact ⟨_, 0, he, Nat.le_max_left 1 _, htick.symm⟩
  · have hrun : ({ s with loadable := false } : State).running = true := (State.running_iff _).mpr ⟨hnone, hpaused⟩
    obtain ⟨t, ht⟩ := stepInstr_completes { s with loadable := false }
    obtain ⟨hleft', -, -⟩ := stepInstr_keeps_driver_fields ht
    obtain ⟨j, hj, hrest⟩ := run_closeStep n t (hleft'.trans hleft)
    have htick := tick_with_step (s := { s with loadable := false }) hrun hipf ht
    exact ⟨_, j, he.trans (quantumStep_of_stepInstr ht n), by omega, hrest.trans htick.symm⟩

/-- Settles O50: the first move is `startTick` with the transaction off the script, and `run_startTick` says how the tick goes on. -/
theorem stepsOfATickAreTheTick : Obligations.StepsOfATickAreTheTick := by
  unfold Obligations.StepsOfATickAreTheTick
  intro s rest hleft hnone hscript
  obtain ⟨htick, rfl⟩ : s.tickNext = true ∧ s.host.tail = rest := by
    obtain hhost | ⟨hhost, rfl⟩ := hscript
    · simp [State.tickNext, hhost]
    · simp [State.tickNext, hhost]
  obtain ⟨t, j, hstart, hj, hrun⟩ := run_startTick { s with host := s.host.tail } hleft hnone
  have hstep : step s = .next t := (step_of_tickNext hleft htick hnone).trans hstart
  exact ⟨j + 1, Nat.le_add_left 1 j, hj, (run_succ hstep j).trans hrun⟩

/-! ## A tick without a step -/

theorem startTick_paused (hnone : s.fault = none) (hpaused : s.paused = true) :
    startTick s = .next { s with loadable := false } := by
  simp [startTick, hnone, hpaused]

theorem startTick_no_steps (hnone : s.fault = none) (hpaused : s.paused = false) (hipf : s.params.ipf = 0) :
    startTick s = .next ({ s with loadable := false } : State).countdown := by
  simp [startTick, hnone, hpaused, hipf]

/-- Settles O51: the two ways a tick begins without a step. -/
theorem tickWithoutSteps : Obligations.TickWithoutSteps := by
  unfold Obligations.TickWithoutSteps
  intro s hleft htick hnone
  rw [step_of_tickNext hleft htick hnone]
  refine ⟨fun hpaused => startTick_paused hnone hpaused, fun hpaused hipf => ?_⟩
  exact ⟨_, startTick_no_steps hnone hpaused hipf, decrement_toNat s.dt, decrement_toNat s.st, rfl⟩

/-! ## Transactions land between ticks -/

/-- A step inside a tick leaves the script alone and does not read it (R223). -/
theorem step_in_tick_withHost {n : Nat} (hleft : s.left = n + 1) (h : step s = .next t) (l : List HostEvent) :
    t.host = s.host ∧ step { s with host := l } = .next { t with host := l } := by
  cases hrun : s.running with
  | false =>
    rw [step_in_tick_stopped hleft hrun] at h
    cases h
    exact ⟨rfl, step_in_tick_stopped (s := { s with host := l }) hleft hrun⟩
  | true =>
    obtain ⟨u, hu⟩ := stepInstr_completes s
    rw [step_in_tick hleft hrun, quantumStep_of_stepInstr hu] at h
    cases h
    obtain ⟨-, hhost, -⟩ := stepInstr_keeps_driver_fields hu
    refine ⟨(closeStep_host n u).trans hhost, ?_⟩
    rw [step_in_tick (s := { s with host := l }) hleft hrun, quantumStep_of_stepInstr (stepInstr_withHost hu l), closeStep_withHost]

/-- Settles O53: between ticks a step is the transaction, by `step_of_event` and `step_of_empty_script`; inside a tick,
`step_in_tick_withHost`. -/
theorem noTransactionInsideATick : Obligations.NoTransactionInsideATick := by
  unfold Obligations.NoTransactionInsideATick
  refine ⟨fun s e rest hleft hhost => step_of_event hleft hhost, fun s hleft hhost hnone => ?_, fun s t hpos h => ?_⟩
  · exact step_of_empty_script hleft hhost hnone
  · obtain ⟨n, hleft⟩ := Nat.exists_eq_succ_of_ne_zero hpos.ne'
    exact ⟨(step_in_tick_withHost hleft h []).1, fun l => (step_in_tick_withHost hleft h l).2⟩

end Sys2Proof.Machine
end

section
/-! PROOFS. Reset, the load of a program image, and a finished program (spec/70_reset_and_hazards.md). -/

namespace Sys2Proof.Machine

variable {s : State} {image : List Byte} {base k : Nat} {a : Word}

/-! ## Reset -/

/-- The font has 80 bytes (R48). -/
theorem font_length : Config.font.length = 80 :=
  rfl

/-- A byte nothing has written reads as the font byte of its address, and as zero where there is none (R29, R48). -/
theorem unlisted_eq (a : Nat) : unlisted a = if h : a < Config.font.length then Config.font[a] else 0 := by
  rw [unlisted]
  split
  · next h => exact List.getD_eq_getElem _ _ h
  · next h => exact List.getD_eq_default _ _ (Nat.le_of_not_lt h)

/-- Every byte after `Reset` reads as one that nothing has written (R250). -/
theorem resetCore_memRead (s : State) (a : Word) : (resetCore s).memRead a = unlisted (effAddr a) :=
  rfl

theorem resetCore_reg (s : State) (x : RegIx) : (resetCore s).reg x = 0 :=
  Vector.getElem_replicate x.isLt

theorem resetCore_key (s : State) (k : Fin 16) : (resetCore s).keys[k] = false :=
  Vector.getElem_replicate k.isLt

/-- Settles O56: the bytes by `resetCore_memRead` and `unlisted_eq`, the registers, pixels and keys by what a vector of equal elements
holds; the other fields are those `resetCore` writes. -/
theorem resetState : Obligations.ResetState := by
  unfold Obligations.ResetState
  refine ⟨font_length, fun s => ⟨resetCore s, rfl, fun a => ?_, resetCore_reg s, rfl, rfl, rfl, rfl, rfl, rfl, rfl,
    Display.isLit_cleared, resetCore_key s, rfl, rfl, rfl, rfl, rfl, rfl, rfl⟩⟩
  rw [resetCore_memRead, unlisted_eq]

/-- Settles O58: both states are what `Reset` leaves of a state, so `resetCore_inv` gives the invariant. -/
theorem resetSatisfiesInvariant : Obligations.ResetSatisfiesInvariant := by
  unfold Obligations.ResetSatisfiesInvariant
  exact ⟨resetCore_inv State.reset, fun p h d => resetCore_inv { State.reset with params := p, host := h, draws := d }⟩

/-! ## The load of a program image -/

/-- An address inside the array is its own effective address (R42). -/
theorem effAddr_ofNat (h : k < 4096) : effAddr (BitVec.ofNat 16 k) = k := by
  rw [effAddr, Config.memSize, BitVec.toNat_ofNat]
  omega

/-- The first byte of an image is written, then the rest one address up (R49). -/
theorem placeImage_cons (base : Nat) (b : Byte) (rest : List Byte) (s : State) :
    placeImage base (b :: rest) s = placeImage (base + 1) rest (s.memWrite (BitVec.ofNat 16 base) b) :=
  rfl

/-- A byte outside the image. -/
theorem placeImage_memRead_out (hwf : s.mem.wf) (hfits : base + image.length ≤ 4096)
    (ha : effAddr a < base ∨ base + image.length ≤ effAddr a) : (placeImage base image s).memRead a = s.memRead a := by
  induction image generalizing base s with
  | nil => rfl
  | cons b rest ih =>
    rw [List.length_cons] at hfits ha
    have hne : effAddr a ≠ effAddr (BitVec.ofNat 16 base) := by
      rw [effAddr_ofNat (by omega)]
      omega
    rw [placeImage_cons, ih (State.memWrite_wf hwf _ _) (by omega) (by omega), State.memRead_memWrite_ne hwf _ hne]

/-- A byte of the image. -/
theorem placeImage_memRead_in (hwf : s.mem.wf) (hfits : base + image.length ≤ 4096) (hk : k < image.length)
    (ha : effAddr a = base + k) : (placeImage base image s).memRead a = image[k] := by
  induction image generalizing base s k with
  | nil => exact absurd hk (Nat.not_lt_zero k)
  | cons b rest ih =>
    rw [List.length_cons] at hfits hk
    have hwf' : (s.memWrite (BitVec.ofNat 16 base) b).mem.wf := State.memWrite_wf hwf _ _
    rw [placeImage_cons]
    cases k with
    | zero =>
      have hfirst : effAddr a = effAddr (BitVec.ofNat 16 base) := ha.trans (effAddr_ofNat (by omega)).symm
      rw [placeImage_memRead_out hwf' (by omega) (by omega), State.memRead_memWrite_same hwf b hfirst, List.getElem_cons_zero]
    | succ k => exact ih hwf' (by omega) (by omega) (by omega)

/-- A `Load` in time of an image that fits (R252). -/
theorem load_of_fits (hload : s.loadable = true) (hlen : image.length ≤ 3584) :
    load image s = .next { placeImage 0x200 image s with loadable := false } := by
  have hfits : ¬ Config.progMax < image.length := Nat.not_lt.mpr hlen
  rw [load, hload, if_neg (by decide), if_neg hfits, Config.progBase]

/-- A `Load` in time of an image too long (R252, U9). -/
theorem load_of_overflow (hload : s.loadable = true) (hlen : 3584 < image.length) :
    load image s = .refused (.loadOverflow image.length) := by
  have hlong : Config.progMax < image.length := hlen
  rw [load, hload, if_neg (by decide), if_pos hlong]

/-- A `Load` out of time (R252; the spec's decision D31). -/
theorem load_of_late (hload : s.loadable = false) : load image s = .refused .loadOutOfOrder := by
  rw [load, hload, if_pos (by decide)]

/-- Settles O57: the three answers of `load`; the bytes of the image by `placeImage_memRead_in`, all others by
`placeImage_memRead_out`. -/
theorem loadPlacesTheImage : Obligations.LoadPlacesTheImage := by
  unfold Obligations.LoadPlacesTheImage
  intro s image hwf
  refine ⟨fun hload hlen => ?_, load_of_overflow, load_of_late⟩
  have hfits : 0x200 + image.length ≤ 4096 := by omega
  refine ⟨_, load_of_fits hload hlen, fun k hk => ?_, fun a ha => ?_, fun r _ => ?_, ?_⟩
  · exact placeImage_memRead_in hwf hfits hk (effAddr_ofNat (by omega))
  · exact placeImage_memRead_out hwf hfits ha
  · rw [placeImage_eq]
    rfl
  · rw [placeImage_eq]

/-! ## A finished program -/

/-- A finished program stays finished under other timers and another position of the driver: those it does not speak of (R266). -/
theorem State.Finished.withTimersAndDriver (h : s.Finished) (dt st : Byte) (left : Nat) (host : List HostEvent) (loadable : Bool) :
    ({ s with dt := dt, st := st, left := left, host := host, loadable := loadable } : State).Finished :=
  h

/-- The jump to itself writes `PC` back: its step is the close on the state it was fetched in (R102, R266). -/
theorem step_of_finished (hfin : s.Finished) (hready : s.readyToFetch = true) :
    step s = .next (closeStep s.leftAfter s.fetchState) := by
  obtain ⟨-, nnn, hdecode, hpc⟩ := hfin
  have hback : (s.fetchState.setPc (s.pc + 2)).setPc (zext16 nnn) = s.fetchState := by
    rw [← hpc, ← State.fetchState_pc]
    rfl
  rw [step_of_decodes hready hdecode, exec, execJp, andThen_next, hback]

/-- Settles O60, by `step_of_finished`: fetching and the close write the timers and the driver's own fields only. -/
theorem finishedProgramStaysFinished : Obligations.FinishedProgramStaysFinished := by
  unfold Obligations.FinishedProgramStaysFinished
  intro s hfin hready
  obtain ⟨host, loadable, hfetch⟩ := s.fetchState_driver_fields
  have hstep := step_of_finished hfin hready
  rw [hfetch, closeStep_eq] at hstep
  exact ⟨_, hstep, hfin.withTimersAndDriver _ _ _ _ _, rfl⟩

end Sys2Proof.Machine
end
